-- ==== Sys2Proof/Word.lean ====
section
/-! DEFINITION. The word types of the CHIP-8 core and their plainest arithmetic (spec/00_scope.md R5, R7, R8). All
values of the machine are unsigned; there is no signed operation and no sign extension anywhere (R7). -/

namespace Sys2Proof

/-- A byte: 8 bits (R7). General registers, timers and memory cells hold one. -/
abbrev Byte := BitVec 8

/-- A 16-bit word: the program counter, the index register, a stack slot, an opcode (R5, R23, R27, R34, R70). -/
abbrev Word := BitVec 16

/-- A 12-bit address immediate `nnn` (R72, R75). -/
abbrev Addr := BitVec 12

/-- A 4-bit slice of the opcode (R12, R71). -/
abbrev Nibble := BitVec 4

/-- The number of a general register, 0 to 15 (R20). -/
abbrev Reg := Fin 16

/-- The number of a key, 0 to 15 (R37). -/
abbrev Key := Fin 16

/-- `VF`, the register that doubles as the flag (R9, R26). -/
abbrev Reg.vF : Reg := 15

/-- The register a 4-bit field of the opcode names (R72, R76). -/
def Reg.ofNibble (b : Nibble) : Reg := ⟨b.toNat, b.isLt⟩

/-- The 4-bit field that names a register (R72, R76). -/
def Reg.toNibble (x : Reg) : Nibble := BitVec.ofNat 4 x.val

/-- A truth value as the byte 1 or 0: every flag of the machine is one of the two (R26, R155). -/
def boolByte (b : Bool) : Byte := if b then 1 else 0

end Sys2Proof
end

