-- ==== Sys2Proof/Syntax.lean ====
section
/-! DEFINITION. The instructions: one constructor per row of spec/opcode_table.json (38 rows, R83), in the table's
order. The operand fields are those of R72 and R74. A bit the decoder ignores (`i` in R74) has no argument; the operand
fields of `SHR`, `SHL`, `SYS` and the catch-alls, which the instructions carry and do not use, have one. -/

namespace Sys2Proof

/-- One instruction of the CHIP-8 core. -/
inductive Instr where
  /-- `CLS` (R180). -/
  | cls
  /-- `RET` (R125). -/
  | ret
  /-- `SYS addr` (R120): the opcodes of family 0x0 that are neither `CLS` nor `RET`. -/
  | sys (nnn : Addr)
  /-- `JMP addr` (R126). -/
  | jmp (nnn : Addr)
  /-- `CALL addr` (R127). -/
  | call (nnn : Addr)
  /-- `SE Vx,nn` (R128). -/
  | seImm (x : Reg) (nn : Byte)
  /-- `SNE Vx,nn` (R129). -/
  | sneImm (x : Reg) (nn : Byte)
  /-- `SE Vx,Vy` (R130). -/
  | seReg (x y : Reg)
  /-- `LD Vx,nn` (R140). -/
  | ldImm (x : Reg) (nn : Byte)
  /-- `ADD Vx,nn` (R141). -/
  | addImm (x : Reg) (nn : Byte)
  /-- `MOV Vx,Vy` (R142). -/
  | mov (x y : Reg)
  /-- `OR Vx,Vy` (R143). -/
  | orReg (x y : Reg)
  /-- `AND Vx,Vy` (R144). -/
  | andReg (x y : Reg)
  /-- `XOR Vx,Vy` (R145). -/
  | xorReg (x y : Reg)
  /-- `ADD Vx,Vy` (R146). -/
  | addReg (x y : Reg)
  /-- `SUB Vx,Vy` (R147). -/
  | subReg (x y : Reg)
  /-- `SHR Vx` (R148); `y` is encoded and ignored. -/
  | shr (x y : Reg)
  /-- `SUBN Vx,Vy` (R149). -/
  | subn (x y : Reg)
  /-- `SHL Vx` (R150); `y` is encoded and ignored. -/
  | shl (x y : Reg)
  /-- `NOP.8` (R121): the unassigned sub-opcodes `n` of family 0x8. -/
  | nop8 (x y : Reg) (n : Nibble)
  /-- `SNE Vx,Vy` (R132). -/
  | sneReg (x y : Reg)
  /-- `LD I,addr` (R160). -/
  | ldI (nnn : Addr)
  /-- `JMP V0,addr` (R131). -/
  | jmpV0 (nnn : Addr)
  /-- `RND Vx,nn` (R151). -/
  | rnd (x : Reg) (nn : Byte)
  /-- `DRW Vx,Vy,n` (R181). -/
  | drw (x y : Reg) (n : Nibble)
  /-- `SKNP Vx` (R191). -/
  | sknp (x : Reg)
  /-- `SKP Vx` (R190). -/
  | skp (x : Reg)
  /-- `NOP.E` (R122): the unassigned sub-opcodes `n` of family 0xE. -/
  | nopE (x : Reg) (n : Nibble)
  /-- `LD Vx,DT` (R193). -/
  | ldVxDT (x : Reg)
  /-- `KEY Vx` (R192). -/
  | key (x : Reg)
  /-- `LD DT,Vx` (R194). -/
  | ldDTVx (x : Reg)
  /-- `LD ST,Vx` (R195). -/
  | ldSTVx (x : Reg)
  /-- `ADD I,Vx` (R161). -/
  | addI (x : Reg)
  /-- `LDF Vx` (R162). -/
  | ldF (x : Reg)
  /-- `BTD Vx` (R163). -/
  | btd (x : Reg)
  /-- `ST [I],Vx` (R164). -/
  | stMem (x : Reg)
  /-- `LD Vx,[I]` (R165). -/
  | ldMem (x : Reg)
  /-- `NOP.F` (R123): the unassigned low bytes of family 0xF. -/
  | nopF (x : Reg) (k : Byte)
deriving DecidableEq, Repr

end Sys2Proof
end

