-- ==== Sys2Proof/WellFormed.lean ====
section
/-! DEFINITION. Which terms of `Instr` are instructions: the operand types bound every field, so the one thing left to
check is that a catch-all row (`SYS`, `NOP.8`, `NOP.E`, `NOP.F`) carries an unassigned sub-opcode (R78 to R81, R85).
A term that does not is another instruction's encoding under the wrong name. -/

namespace Sys2Proof

/-- Family 0x0: low nibble 0x0 is `CLS` and 0xE is `RET`; the other 14 are unassigned (R78, R85). -/
def unassigned0 (n : Nibble) : Bool := !([0x0#4, 0xE#4].contains n)

/-- Family 0x8: low nibbles 0x8 to 0xD and 0xF are unassigned, 7 values (R79, R85). -/
def unassigned8 (n : Nibble) : Bool := [0x8#4, 0x9#4, 0xA#4, 0xB#4, 0xC#4, 0xD#4, 0xF#4].contains n

/-- Family 0xE: low nibble 0x1 is `SKNP` and 0xE is `SKP`; the other 14 are unassigned (R80, R85). -/
def unassignedE (n : Nibble) : Bool := !([0x1#4, 0xE#4].contains n)

/-- Family 0xF: nine low bytes are assigned; the other 247 are not (R81, R85). -/
def unassignedF (k : Byte) : Bool :=
  !([0x07#8, 0x0A#8, 0x15#8, 0x18#8, 0x1E#8, 0x29#8, 0x33#8, 0x55#8, 0x65#8].contains k)

/-- The check of one instruction. -/
def Instr.wf : Instr → Bool
  | .sys nnn => unassigned0 (nnn.extractLsb' 0 4)
  | .nop8 _ _ n => unassigned8 n
  | .nopE _ n => unassignedE n
  | .nopF _ k => unassignedF k
  | .cls | .ret | .jmp _ | .call _ | .seImm _ _ | .sneImm _ _ | .seReg _ _ | .ldImm _ _ | .addImm _ _ => true
  | .mov _ _ | .orReg _ _ | .andReg _ _ | .xorReg _ _ | .addReg _ _ | .subReg _ _ | .shr _ _ | .subn _ _ => true
  | .shl _ _ | .sneReg _ _ | .ldI _ | .jmpV0 _ | .rnd _ _ | .drw _ _ _ | .sknp _ | .skp _ | .ldVxDT _ => true
  | .key _ | .ldDTVx _ | .ldSTVx _ | .addI _ | .ldF _ | .btd _ | .stMem _ | .ldMem _ => true

/-- The instruction is one the opcode table has. -/
abbrev Instr.WellFormed (i : Instr) : Prop := i.wf = true

end Sys2Proof
end

