-- ==== Sys2Proof/Decode.lean ====
section
/-! DEFINITION. Decoding and encoding (spec/30_encoding.md). Decoding looks at exactly the bits R73 says it looks at:
the high nibble; the low nibble too in families 0x0, 0x8 and 0xE; the low byte too in family 0xF. Every 16-bit word
decodes (R83, R86), so `decodeWord` is a plain function; bytes that do not hold a whole word are rejected by name. -/

namespace Sys2Proof

/-! ## Fields (R71, R72) -/

/-- `f = op[15:12]`, the family. -/
def family (w : Word) : Nibble := w.extractLsb' 12 4

/-- `x = op[11:8]`, a register number. -/
def fieldX (w : Word) : Reg := Reg.ofNibble (w.extractLsb' 8 4)

/-- `y = op[7:4]`, a register number. -/
def fieldY (w : Word) : Reg := Reg.ofNibble (w.extractLsb' 4 4)

/-- `n = op[3:0]`, the sprite height, and the sub-opcode of families 0x0, 0x8, 0xE. -/
def fieldN (w : Word) : Nibble := w.extractLsb' 0 4

/-- `nn = op[7:0]`, the 8-bit immediate, and the sub-opcode of family 0xF. -/
def fieldNN (w : Word) : Byte := w.extractLsb' 0 8

/-- `nnn = op[11:0]`, the 12-bit address immediate. -/
def fieldNNN (w : Word) : Addr := w.extractLsb' 0 12

/-! ## Decoding (R73, R77 to R81) -/

/-- Family 0x0, selected by the low nibble; bits 11:4 are ignored for `CLS` and `RET` (R78). -/
def decode0 (w : Word) : Instr :=
  match (fieldN w).toNat with
  | 0x0 => .cls
  | 0xE => .ret
  | _ => .sys (fieldNNN w)

/-- Family 0x8, selected by the low nibble (R79). -/
def decode8 (w : Word) : Instr :=
  match (fieldN w).toNat with
  | 0x0 => .mov (fieldX w) (fieldY w)
  | 0x1 => .orReg (fieldX w) (fieldY w)
  | 0x2 => .andReg (fieldX w) (fieldY w)
  | 0x3 => .xorReg (fieldX w) (fieldY w)
  | 0x4 => .addReg (fieldX w) (fieldY w)
  | 0x5 => .subReg (fieldX w) (fieldY w)
  | 0x6 => .shr (fieldX w) (fieldY w)
  | 0x7 => .subn (fieldX w) (fieldY w)
  | 0xE => .shl (fieldX w) (fieldY w)
  | _ => .nop8 (fieldX w) (fieldY w) (fieldN w)

/-- Family 0xE, selected by the low nibble; bits 7:4 are ignored (R80). -/
def decodeE (w : Word) : Instr :=
  match (fieldN w).toNat with
  | 0x1 => .sknp (fieldX w)
  | 0xE => .skp (fieldX w)
  | _ => .nopE (fieldX w) (fieldN w)

/-- Family 0xF, selected by the low byte (R81). -/
def decodeF (w : Word) : Instr :=
  match (fieldNN w).toNat with
  | 0x07 => .ldVxDT (fieldX w)
  | 0x0A => .key (fieldX w)
  | 0x15 => .ldDTVx (fieldX w)
  | 0x18 => .ldSTVx (fieldX w)
  | 0x1E => .addI (fieldX w)
  | 0x29 => .ldF (fieldX w)
  | 0x33 => .btd (fieldX w)
  | 0x55 => .stMem (fieldX w)
  | 0x65 => .ldMem (fieldX w)
  | _ => .nopF (fieldX w) (fieldNN w)

/-- The instruction a 16-bit opcode stands for: dispatch on the high nibble (R73, R77). The last arm is family 0xF. -/
def decodeWord (w : Word) : Instr :=
  match (family w).toNat with
  | 0x0 => decode0 w
  | 0x1 => .jmp (fieldNNN w)
  | 0x2 => .call (fieldNNN w)
  | 0x3 => .seImm (fieldX w) (fieldNN w)
  | 0x4 => .sneImm (fieldX w) (fieldNN w)
  | 0x5 => .seReg (fieldX w) (fieldY w)
  | 0x6 => .ldImm (fieldX w) (fieldNN w)
  | 0x7 => .addImm (fieldX w) (fieldNN w)
  | 0x8 => decode8 w
  | 0x9 => .sneReg (fieldX w) (fieldY w)
  | 0xA => .ldI (fieldNNN w)
  | 0xB => .jmpV0 (fieldNNN w)
  | 0xC => .rnd (fieldX w) (fieldNN w)
  | 0xD => .drw (fieldX w) (fieldY w) (fieldN w)
  | 0xE => decodeE w
  | _ => decodeF w

/-- Why a sequence of bytes does not start with an instruction. -/
inductive DecodeError where
  /-- Fewer than the two bytes of an opcode (R70). Raised by `decodeBytes` only; the machine's own fetch always has two
  bytes or faults (R101). -/
  | truncated
deriving DecidableEq, Repr

/-- The opcode two bytes make, the byte at the lower address most significant (R53). -/
def wordOfBytes (b0 b1 : Byte) : Word := b0 ++ b1

/-- Decode the first instruction of a sequence of bytes, and answer the bytes after it (R70, R91). -/
def decodeBytes : List Byte → Except DecodeError (Instr × List Byte)
  | b0 :: b1 :: rest => .ok (decodeWord (wordOfBytes b0 b1), rest)
  | _ => .error .truncated

/-! ## Encoding (R74, R82, R89): the canonical word, ignored bits at their customary values -/

/-- Format `A`: `ffff nnnn nnnn nnnn`. -/
def wordA (f : Nibble) (nnn : Addr) : Word := f ++ nnn

/-- Formats `XI` and `XF`: `ffff xxxx kkkk kkkk`. -/
def wordXI (f : Nibble) (x : Reg) (k : Byte) : Word := f ++ (x.toNibble ++ k : BitVec 12)

/-- Formats `XY`, `XYS`, `XYN` and `XE`: `ffff xxxx yyyy ssss`. -/
def wordXYN (f : Nibble) (x y : Reg) (n : Nibble) : Word := f ++ (x.toNibble ++ (y.toNibble ++ n : BitVec 8) : BitVec 12)

/-- The canonical word of an instruction. `NOP.E` has no customary spelling for its ignored bits; zeros are written. -/
def encode : Instr → Word
  | .cls => 0x00E0
  | .ret => 0x00EE
  | .sys nnn => wordA 0x0 nnn
  | .jmp nnn => wordA 0x1 nnn
  | .call nnn => wordA 0x2 nnn
  | .seImm x nn => wordXI 0x3 x nn
  | .sneImm x nn => wordXI 0x4 x nn
  | .seReg x y => wordXYN 0x5 x y 0x0
  | .ldImm x nn => wordXI 0x6 x nn
  | .addImm x nn => wordXI 0x7 x nn
  | .mov x y => wordXYN 0x8 x y 0x0
  | .orReg x y => wordXYN 0x8 x y 0x1
  | .andReg x y => wordXYN 0x8 x y 0x2
  | .xorReg x y => wordXYN 0x8 x y 0x3
  | .addReg x y => wordXYN 0x8 x y 0x4
  | .subReg x y => wordXYN 0x8 x y 0x5
  | .shr x y => wordXYN 0x8 x y 0x6
  | .subn x y => wordXYN 0x8 x y 0x7
  | .shl x y => wordXYN 0x8 x y 0xE
  | .nop8 x y n => wordXYN 0x8 x y n
  | .sneReg x y => wordXYN 0x9 x y 0x0
  | .ldI nnn => wordA 0xA nnn
  | .jmpV0 nnn => wordA 0xB nnn
  | .rnd x nn => wordXI 0xC x nn
  | .drw x y n => wordXYN 0xD x y n
  | .sknp x => wordXI 0xE x 0xA1
  | .skp x => wordXI 0xE x 0x9E
  | .nopE x n => wordXYN 0xE x 0 n
  | .ldVxDT x => wordXI 0xF x 0x07
  | .key x => wordXI 0xF x 0x0A
  | .ldDTVx x => wordXI 0xF x 0x15
  | .ldSTVx x => wordXI 0xF x 0x18
  | .addI x => wordXI 0xF x 0x1E
  | .ldF x => wordXI 0xF x 0x29
  | .btd x => wordXI 0xF x 0x33
  | .stMem x => wordXI 0xF x 0x55
  | .ldMem x => wordXI 0xF x 0x65
  | .nopF x k => wordXI 0xF x k

/-- The byte of a word that lies at the lower address (R53). -/
def highByte (w : Word) : Byte := w.extractLsb' 8 8

/-- The byte of a word that lies at the higher address (R53). -/
def lowByte (w : Word) : Byte := w.extractLsb' 0 8

/-- The two bytes of an instruction's canonical word, in address order. -/
def encodeBytes (i : Instr) : List Byte := [highByte (encode i), lowByte (encode i)]

/-! ## The opcode table as data (R78 to R81, R83) -/

/-- A row of spec/opcode_table.json: the opcodes `w` with `w &&& mask = pattern` belong to it, unless an earlier row
takes them. -/
structure OpcodeRow where
  mnemonic : String
  pattern : Word
  mask : Word
deriving DecidableEq, Repr

/-- The rows that select by the high nibble alone (R77). -/
def rowsByFamily : List OpcodeRow :=
  [⟨"JMP_addr", 0x1000, 0xF000⟩, ⟨"CALL_addr", 0x2000, 0xF000⟩, ⟨"SE_Vx_nn", 0x3000, 0xF000⟩,
   ⟨"SNE_Vx_nn", 0x4000, 0xF000⟩, ⟨"SE_Vx_Vy", 0x5000, 0xF000⟩, ⟨"LD_Vx_nn", 0x6000, 0xF000⟩,
   ⟨"ADD_Vx_nn", 0x7000, 0xF000⟩, ⟨"SNE_Vx_Vy", 0x9000, 0xF000⟩, ⟨"LD_I_addr", 0xA000, 0xF000⟩,
   ⟨"JMP_V0_addr", 0xB000, 0xF000⟩, ⟨"RND_Vx_nn", 0xC000, 0xF000⟩, ⟨"DRW_Vx_Vy_n", 0xD000, 0xF000⟩]

/-- Family 0x0, the catch-all last (R78). -/
def rowsFamily0 : List OpcodeRow :=
  [⟨"CLS", 0x0000, 0xF00F⟩, ⟨"RET", 0x000E, 0xF00F⟩, ⟨"SYS_addr", 0x0000, 0xF000⟩]

/-- Family 0x8, the catch-all last (R79). -/
def rowsFamily8 : List OpcodeRow :=
  [⟨"MOV_Vx_Vy", 0x8000, 0xF00F⟩, ⟨"OR_Vx_Vy", 0x8001, 0xF00F⟩, ⟨"AND_Vx_Vy", 0x8002, 0xF00F⟩,
   ⟨"XOR_Vx_Vy", 0x8003, 0xF00F⟩, ⟨"ADD_Vx_Vy", 0x8004, 0xF00F⟩, ⟨"SUB_Vx_Vy", 0x8005, 0xF00F⟩,
   ⟨"SHR_Vx", 0x8006, 0xF00F⟩, ⟨"SUBN_Vx_Vy", 0x8007, 0xF00F⟩, ⟨"SHL_Vx", 0x800E, 0xF00F⟩,
   ⟨"NOP.8", 0x8000, 0xF000⟩]

/-- Family 0xE, the catch-all last (R80). -/
def rowsFamilyE : List OpcodeRow :=
  [⟨"SKNP_Vx", 0xE001, 0xF00F⟩, ⟨"SKP_Vx", 0xE00E, 0xF00F⟩, ⟨"NOP.E", 0xE000, 0xF000⟩]

/-- Family 0xF, the catch-all last (R81). -/
def rowsFamilyF : List OpcodeRow :=
  [⟨"LD_Vx_DT", 0xF007, 0xF0FF⟩, ⟨"KEY_Vx", 0xF00A, 0xF0FF⟩, ⟨"LD_DT_Vx", 0xF015, 0xF0FF⟩,
   ⟨"LD_ST_Vx", 0xF018, 0xF0FF⟩, ⟨"ADD_I_Vx", 0xF01E, 0xF0FF⟩, ⟨"LDF_Vx", 0xF029, 0xF0FF⟩,
   ⟨"BTD_Vx", 0xF033, 0xF0FF⟩, ⟨"ST__I__Vx", 0xF055, 0xF0FF⟩, ⟨"LD_Vx__I", 0xF065, 0xF0FF⟩,
   ⟨"NOP.F", 0xF000, 0xF000⟩]

/-- The whole table: 38 rows, each family's catch-all after its specific rows (R83). -/
def opcodeTable : List OpcodeRow := rowsFamily0 ++ rowsByFamily ++ rowsFamily8 ++ rowsFamilyE ++ rowsFamilyF

/-- An opcode meets a row's mask and pattern. -/
def OpcodeRow.accepts (r : OpcodeRow) (w : Word) : Bool := w &&& r.mask == r.pattern

/-- The row that selects an opcode's instruction: the first that accepts it (R83). -/
def rowOf (w : Word) : Option OpcodeRow := opcodeTable.find? (·.accepts w)

/-- The mnemonic of an instruction in spec/opcode_table.json, letter for letter. -/
def Instr.mnemonic : Instr → String
  | .cls => "CLS"
  | .ret => "RET"
  | .sys _ => "SYS_addr"
  | .jmp _ => "JMP_addr"
  | .call _ => "CALL_addr"
  | .seImm _ _ => "SE_Vx_nn"
  | .sneImm _ _ => "SNE_Vx_nn"
  | .seReg _ _ => "SE_Vx_Vy"
  | .ldImm _ _ => "LD_Vx_nn"
  | .addImm _ _ => "ADD_Vx_nn"
  | .mov _ _ => "MOV_Vx_Vy"
  | .orReg _ _ => "OR_Vx_Vy"
  | .andReg _ _ => "AND_Vx_Vy"
  | .xorReg _ _ => "XOR_Vx_Vy"
  | .addReg _ _ => "ADD_Vx_Vy"
  | .subReg _ _ => "SUB_Vx_Vy"
  | .shr _ _ => "SHR_Vx"
  | .subn _ _ => "SUBN_Vx_Vy"
  | .shl _ _ => "SHL_Vx"
  | .nop8 _ _ _ => "NOP.8"
  | .sneReg _ _ => "SNE_Vx_Vy"
  | .ldI _ => "LD_I_addr"
  | .jmpV0 _ => "JMP_V0_addr"
  | .rnd _ _ => "RND_Vx_nn"
  | .drw _ _ _ => "DRW_Vx_Vy_n"
  | .sknp _ => "SKNP_Vx"
  | .skp _ => "SKP_Vx"
  | .nopE _ _ => "NOP.E"
  | .ldVxDT _ => "LD_Vx_DT"
  | .key _ => "KEY_Vx"
  | .ldDTVx _ => "LD_DT_Vx"
  | .ldSTVx _ => "LD_ST_Vx"
  | .addI _ => "ADD_I_Vx"
  | .ldF _ => "LDF_Vx"
  | .btd _ => "BTD_Vx"
  | .stMem _ => "ST__I__Vx"
  | .ldMem _ => "LD_Vx__I"
  | .nopF _ _ => "NOP.F"

/-! ## The host's view of the decoder -/

/-- The two bytes the hardware stores for an instruction whose bits, numbered as spec/opcode_table.json numbers them
(one 16-bit word, bit 0 its least significant), are `w`; the bits at `nbits` and above are zero. -/
def tableBytes (nbits w : Nat) : List Byte :=
  [highByte (BitVec.ofNat 16 (w % 2 ^ nbits)), lowByte (BitVec.ofNat 16 (w % 2 ^ nbits))]

/-- What the decoder reads from a row's word. Every instruction is one 16-bit word (R70), so a longer one is none of
this machine's. -/
def decodeTableWord (nbits w : Nat) : Option Instr :=
  if nbits ≤ 16 then
    match decodeBytes (tableBytes nbits w) with
    | .ok (i, _) => some i
    | .error _ => none
  else none

end Sys2Proof
end

