-- ==== Sys2Proof/Config.lean ====
section
/-! DEFINITION. What is fixed for one machine: the constants of R5 and the open parameters of R6 (spec/00_scope.md).
The spec says that "the model takes these as arguments (a configuration record and an oracle)". The record is
`Config`; State carries one, no step and no host operation changes it (R32, R45), and a statement about every state
therefore holds for every choice of the parameters. The oracle `RandomByte()` and the two colours have no default in
the spec: they are constants without a body, so no proof can know a value of theirs. -/

namespace Sys2Proof.Config

/-- `MEM_SIZE`: bytes of memory, addresses 0x000 to 0xFFF (R5, R50). -/
abbrev memSize : Nat := 4096

/-- `FONT_BASE`: first address of the font glyph set (R5). -/
abbrev fontBase : Nat := 0x050

/-- `FONT_SIZE`: bytes of font data (R5). -/
abbrev fontSize : Nat := 80

/-- `GLYPH_BYTES`: bytes per glyph (R5). -/
abbrev glyphBytes : Nat := 5

/-- `PROG_BASE`: load address and reset value of the program counter (R5). -/
abbrev progBase : Nat := 0x200

/-- `MAX_PROG`: the longest program `load_program` accepts (R5, R234). -/
abbrev maxProg : Nat := 3584

/-- `STACK_DEPTH`: return-address slots (R5, R34). -/
abbrev stackDepth : Nat := 16

/-- `FB_W`: framebuffer width in pixels (R5, R36). -/
abbrev fbWidth : Nat := 64

/-- `FB_H`: framebuffer height in pixels (R5, R36). -/
abbrev fbHeight : Nat := 32

/-- The parameter `ADDI_FLAG` of R6 as plain data: which value `ADD I,Vx` writes to VF. The first five constructors are
the functions R161 names; `table rows` stands for any other total function on the finite domain, given by its rows
(sum, old VF, flag), with the default rule where no row fits. Log entry 3. -/
inductive AddIFlag where
  /-- The default: 1 if `sum > 0x100`, else 0. -/
  | past0x100
  /-- 1 if `sum > 0xFF`, else 0. -/
  | past0xFF
  /-- 1 if `sum > 0x100`, else the old VF. -/
  | past0x100OrOld
  /-- 1 if `sum > 0xFFF`, else 0. -/
  | past0xFFF
  /-- The old VF: no flag effect. -/
  | noEffect
  /-- Any other function, row by row. -/
  | table (rows : List (Nat × Byte × Byte))
deriving DecidableEq, Repr

/-- `RandomByte()`: the draw number `k` of the machine's run, any byte under no law (R6, R40, R151). Free value: no
body, log entry 2. -/
opaque randomByte : Nat → Byte

/-- `ON_COLOR` of R6, which the spec leaves unspecified; only the presentation view reads it (R184). Log entry 5. -/
opaque onColor : BitVec 32

/-- `OFF_COLOR` of R6, which the spec leaves unspecified; only the presentation view reads it (R184). Log entry 5. -/
opaque offColor : BitVec 32

end Sys2Proof.Config

namespace Sys2Proof

/-- The configuration record of R6 and R32: constructor parameters, read by the step and changed by nothing. -/
structure Config where
  /-- `FONT_DATA`: the 80 glyph bytes that reset copies to `FONT_BASE` (R41, R231). -/
  fontData : Vector Byte 80
  /-- `ADDI_FLAG`: the flag of `ADD I,Vx` (R161). -/
  addIFlag : Config.AddIFlag
  /-- `KEY_STORE_INDEX`: whether `KEY Vx` stores the key's index or the constant 1 (R192). -/
  keyStoreIndex : Bool
deriving DecidableEq, Repr

/-- The customary glyph bytes of R41's table, digit 0 first, top row first. The spec marks them as general
knowledge; PRESUMED, log entry 4. -/
def Config.customaryFont : Vector Byte 80 :=
  #v[0xF0, 0x90, 0x90, 0x90, 0xF0,  0x20, 0x60, 0x20, 0x20, 0x70,
     0xF0, 0x10, 0xF0, 0x80, 0xF0,  0xF0, 0x10, 0xF0, 0x10, 0xF0,
     0x90, 0x90, 0xF0, 0x10, 0x10,  0xF0, 0x80, 0xF0, 0x10, 0xF0,
     0xF0, 0x80, 0xF0, 0x90, 0xF0,  0xF0, 0x10, 0x20, 0x40, 0x40,
     0xF0, 0x90, 0xF0, 0x90, 0xF0,  0xF0, 0x90, 0xF0, 0x10, 0xF0,
     0xF0, 0x90, 0xF0, 0x90, 0x90,  0xE0, 0x90, 0xE0, 0x90, 0xE0,
     0xF0, 0x80, 0x80, 0x80, 0xF0,  0xE0, 0x90, 0x90, 0x90, 0xE0,
     0xF0, 0x80, 0xF0, 0x80, 0xF0,  0xF0, 0x80, 0xF0, 0x80, 0x80]

/-- The defaults R6 recommends, which `State.reset` carries. -/
def Config.recommended : Config :=
  { fontData := Config.customaryFont, addIFlag := .past0x100, keyStoreIndex := true }

end Sys2Proof
end

