-- ==== Sys2Proof/Machine/State.lean ====
section
/-! DEFINITION. The machine's state as plain data (spec/10_state.md), the reasons a step or a host operation can stop
(spec/60_exceptions.md R200), and the state after reset (R45, R230). -/

namespace Sys2Proof.Machine

/-- Memory: the bytes that differ from what an unlisted address reads as, addresses strictly rising (R38, R50). The
canonical form and every operation are in Machine/Ops.lean. -/
abbrev Memory := List Host.Cell

/-- The state of the core. -/
structure State where
  /-- `V[0]` to `V[15]`, the general registers (R20); `VF` is `V[15]` (R26). -/
  v : Vector Byte 16
  /-- The program counter (R23). -/
  pc : Word
  /-- The index register `I`, 16 storage bits of which 12 are significant (R27). -/
  i : Word
  /-- The stack pointer, 0 to 16 (R28). -/
  sp : Fin 17
  /-- `STACK[0]` to `STACK[15]`, an array of its own, not part of memory (R34). -/
  stack : Vector Word 16
  /-- The delay timer `DT` (R29). -/
  dt : Byte
  /-- The sound timer `ST` (R30). -/
  st : Byte
  /-- The framebuffer `FB`, one 64-bit row for each `y`; column `x` is the bit `x` places from the left (R36). -/
  fb : Vector (BitVec 64) 32
  /-- `KEY[0]` to `KEY[15]`, written by the host between steps (R37). -/
  keys : Vector Bool 16
  /-- `MEM`, 4096 bytes (R38). -/
  mem : Memory
  /-- The model's own field: how many random draws the run has consumed; the next draw is `Config.randomByte draws`
  (R40; log entry 2). -/
  draws : Nat
  /-- The model's own field: the parameters of R6, supplied once at startup and changed by nothing (R32; log entry 1). -/
  config : Config
deriving DecidableEq, Repr

/-- The faults of R200. None of them latches in the state (R33, R207). -/
inductive Fault where
  /-- Raised by `load_program` on an input longer than 3584 bytes, with its length (R201, R234). Safe: the spec's own
  fault. -/
  | programTooLarge (length : Nat)
  /-- Raised by `CALL addr` when all 16 slots are in use (R202). Safe: the spec's own fault. -/
  | stackOverflow
  /-- Raised by `RET` when the stack is empty (R203). Safe: the spec's own fault. -/
  | stackUnderflow
  /-- Raised by `SKP Vx` and `SKNP Vx` when `V[x] > 15`, with that value (R204). Safe: the spec's own fault. -/
  | keyIndexOutOfRange (value : Byte)
  /-- Raised by fetch, `DRW`, `BTD`, `ST [I],Vx` and `LD Vx,[I]` when an address they would access is above 0xFFF, with
  the highest such address (R205). Safe: the spec's own fault. -/
  | addressOutOfRange (address : Nat)
deriving DecidableEq, Repr

/-- Why the model gives no outcome. -/
inductive Refusal where
  /-- An instruction without a meaning yet, by its mnemonic: an arm of `exec`, and nothing else, raises it. Safe. No
  arm does. -/
  | notModelled (mnemonic : String)
  /-- A host operation other than `initialize` on a core that was never initialised (R237), raised by `perform`; no
  step of an initialised core raises it. Safe. -/
  | notInitialized
deriving DecidableEq, Repr

/-- The state `initialize` leaves (R45, R230), for a given configuration and with a given number of draws consumed. The
font is not listed: it is what the unlisted addresses of the font region read as (Machine/Ops.lean, `unlisted`). -/
def State.resetWith (config : Config) (draws : Nat) : State :=
  { v := Vector.replicate 16 0, pc := 0x200, i := 0, sp := 0, stack := Vector.replicate 16 0, dt := 0, st := 0,
    fb := Vector.replicate 32 0, keys := Vector.replicate 16 false, mem := [], draws := draws, config := config }

/-- The machine right after reset, with the parameters the spec recommends (R6, R45, R230). -/
def State.reset : State := State.resetWith Config.recommended 0

end Sys2Proof.Machine
end

