-- ==== Sys2Proof/Machine/Ops.lean ====
section
/-! DEFINITION. The named operations over memory, registers, stack, framebuffer, keys and timers, and raising a fault.
Every meaning is written over these. -/

namespace Sys2Proof.Machine

/-- The outcome of a step, an instruction or a host operation on this machine. -/
abbrev Outcome := Host.Outcome State Fault Refusal

/-! ## Memory (spec/20_memory.md) -/

/-- What an address reads as when memory lists nothing there: the font glyphs at 0x050 to 0x09F and zero elsewhere,
which is what `initialize` leaves (R38, R45, R51, R231). -/
def unlisted (font : Vector Byte 80) (a : Nat) : Byte :=
  if h : Config.fontBase ≤ a ∧ a < Config.fontBase + 80 then
    font[a - Config.fontBase]'(Nat.sub_lt_left_of_lt_add h.1 h.2)
  else 0

/-- The byte at an address. -/
def Memory.read (font : Vector Byte 80) : Memory → Nat → Byte
  | [], a => unlisted font a
  | (b, w) :: m, a => if a = b then w else Memory.read font m a

/-- Memory without an entry for an address. -/
def Memory.erase : Memory → Nat → Memory
  | [], _ => []
  | (b, w) :: m, a => if a = b then Memory.erase m a else (b, w) :: Memory.erase m a

/-- Memory with an entry added before the first larger address. -/
def Memory.insert : Memory → Nat → Byte → Memory
  | [], a, x => [(a, x)]
  | (b, w) :: m, a, x => if a < b then (a, x) :: (b, w) :: m else (b, w) :: Memory.insert m a x

/-- A write changes exactly the addressed byte (R56). Writing what an unlisted address reads as removes the entry, so
that equal memories are equal lists. -/
def Memory.write (font : Vector Byte 80) (m : Memory) (a : Nat) (x : Byte) : Memory :=
  if x = unlisted font a then Memory.erase m a else Memory.insert (Memory.erase m a) a x

/-- The entries from an address on are in canonical form. -/
def Memory.wfFrom (font : Vector Byte 80) : Nat → Memory → Bool
  | _, [] => true
  | lo, (a, x) :: m =>
    decide (lo ≤ a) && decide (a < Config.memSize) && decide (x ≠ unlisted font a) && Memory.wfFrom font (a + 1) m

/-- The canonical form: addresses strictly rising and inside the address space (R50), no entry equal to what an
unlisted address reads as. -/
def Memory.wf (font : Vector Byte 80) (m : Memory) : Bool := Memory.wfFrom font 0 m

/-- The byte of `MEM` at an address. -/
def State.readByte (s : State) (a : Nat) : Byte := Memory.read s.config.fontData s.mem a

/-- Store one byte of `MEM`. -/
def State.writeByte (s : State) (a : Nat) (x : Byte) : State :=
  { s with mem := Memory.write s.config.fontData s.mem a x }

/-- Store bytes at ascending addresses (R54, R60). -/
def State.writeBytes (s : State) (a : Nat) : List Byte → State
  | [] => s
  | x :: xs => State.writeBytes (s.writeByte a x) (a + 1) xs

/-- The state's memory is in canonical form. -/
abbrev State.MemoryCanonical (s : State) : Prop := Memory.wf s.config.fontData s.mem = true

/-! ## Faults (spec/60_exceptions.md)

This machine's one form of exception: no vector, no handler, no saved state and no return from it (R212). A fault is
the outcome of the operation; it carries no state, because the whole step is discarded (R106, R208). -/

/-- `raise <Fault>(info)` (R10, R207). -/
def raise (f : Fault) : Outcome := .fault f

/-- The numeric code of a fault (R200). -/
def Fault.code : Fault → Nat
  | .programTooLarge _ => 1
  | .stackOverflow => 2
  | .stackUnderflow => 3
  | .keyIndexOutOfRange _ => 4
  | .addressOutOfRange _ => 5

/-- Go on only if the highest address an operation would access is in range; the check precedes every write
(R59, R167, R208). -/
def checkAddress (h : Nat) (k : Outcome) : Outcome := if h ≤ 0xFFF then k else raise (.addressOutOfRange h)

/-! ## Registers (spec/10_state.md) -/

/-- A read of `V[x]`. -/
def State.reg (s : State) (x : Reg) : Byte := s.v[x.val]

/-- `V[x] <- b`. There is no hardwired register (R20). -/
def State.setReg (s : State) (x : Reg) (b : Byte) : State := { s with v := s.v.set x.val b }

/-- `pc <- a`. -/
def State.setPc (s : State) (a : Word) : State := { s with pc := a }

/-- `skip`: one more instruction is passed over when the condition holds (R10, R124). -/
def State.skipIf (s : State) (c : Bool) : State := if c then s.setPc (s.pc + 2) else s

/-- `I <- a`. -/
def State.setI (s : State) (a : Word) : State := { s with i := a }

/-- `DT <- b`. -/
def State.setDt (s : State) (b : Byte) : State := { s with dt := b }

/-- `ST <- b`. -/
def State.setSt (s : State) (b : Byte) : State := { s with st := b }

/-- `V[0]` to `V[x]` in ascending order (R164). -/
def State.regsUpTo (s : State) (x : Reg) : List Byte := s.v.toList.take (x.val + 1)

/-- `V[r] <- MEM[a + r]` for `r` from 0 to `x`; the registers above `x` keep their values (R165). -/
def State.loadRegs (s : State) (x : Reg) (a : Nat) : State :=
  { s with v := Vector.ofFn fun (r : Reg) => if r ≤ x then s.readByte (a + r.val) else s.reg r }

/-! ## The call stack (R34, R35) -/

/-- `STACK[SP] <- ret; SP <- SP + 1`, where a slot is free. -/
def State.push (s : State) (ret : Word) (h : s.sp.val < 16) : State :=
  { s with stack := s.stack.set s.sp.val ret, sp := ⟨s.sp.val + 1, by omega⟩ }

/-- The entry `RET` pops, where there is one. -/
def State.top (s : State) (h : 0 < s.sp.val) : Word := s.stack[s.sp.val - 1]'(by omega)

/-- `SP <- SP - 1`; the popped slot keeps its value (R35). -/
def State.pop (s : State) (h : 0 < s.sp.val) : State := { s with sp := ⟨s.sp.val - 1, by omega⟩ }

/-! ## The framebuffer (R36) and the sprite blit (R181, R182) -/

/-- The pixel at column `x`, row `y`. -/
def State.pixel (s : State) (x y : Nat) : Bool := if h : y < 32 then s.fb[y].getMsbD x else false

/-- Every pixel off (R180). -/
def State.clearFb (s : State) : State := { s with fb := Vector.replicate 32 0 }

/-- One sprite row on a screen row: bit 7 is the leftmost pixel, at column `x0`; columns past 63 are clipped
(R182 (a), (b)). -/
def spriteRow (b : Byte) (x0 : Nat) : BitVec 64 := (b ++ 0#56) >>> x0

/-- The sprite at `I`, one byte a row from row `y0` down, as the pixels it touches in screen row `y` (R182). -/
def State.spriteMask (s : State) (x0 y0 rows y : Nat) : BitVec 64 :=
  if y0 ≤ y ∧ y < y0 + rows then spriteRow (s.readByte (s.i.toNat + (y - y0))) x0 else 0

/-- XOR the sprite into the framebuffer. -/
def State.blit (s : State) (x0 y0 rows : Nat) : State :=
  { s with fb := Vector.ofFn fun (y : Fin 32) => s.fb[y.val] ^^^ s.spriteMask x0 y0 rows y.val }

/-- Some pixel that is on lies under a sprite pixel, anywhere in the blit (R181). -/
def State.collides (s : State) (x0 y0 rows : Nat) : Bool :=
  (List.finRange 32).any fun y => s.fb[y.val] &&& s.spriteMask x0 y0 rows y.val != 0

/-! ## Keys, timers, random draws -/

/-- `KEY[k]`. -/
def State.keyDown (s : State) (k : Key) : Bool := s.keys[k.val]

/-- The least pressed key, if any is pressed (R192). -/
def State.leastKey (s : State) : Option Key := (List.finRange 16).find? fun k => s.keyDown k

/-- The host's key write (R37, R238). -/
def State.setKey (s : State) (k : Key) (down : Bool) : State := { s with keys := s.keys.set k.val down }

/-- A timer's decrement: by one when nonzero, never below zero (R105). -/
def decrement (b : Byte) : Byte := if b = 0 then 0 else b - 1

/-- The timer phase (R105): the two timers tick independently. -/
def State.tickTimers (s : State) : State := { s with dt := decrement s.dt, st := decrement s.st }

/-- The value of the next `RandomByte()` draw (R40). -/
def State.nextDraw (s : State) : Byte := Config.randomByte s.draws

/-- The draw is consumed. -/
def State.takeDraw (s : State) : State := { s with draws := s.draws + 1 }

/-! ## Fetch (R100 to R102) -/

/-- The opcode at the program counter, big-endian (R53, R101). -/
def State.opcode (s : State) : Word := wordOfBytes (s.readByte s.pc.toNat) (s.readByte (s.pc.toNat + 1))

/-- The program-counter advance, which precedes execution (R102). -/
def State.advance (s : State) : State := s.setPc (s.pc + 2)

end Sys2Proof.Machine
end

