-- ==== Sys2Proof/Machine/Cycle.lean ====
section
/-! DEFINITION. The phases of `step()` (spec/40_step_cycle.md): fetch, program-counter advance, decode, execute,
timers. The execute phase is an argument, which Machine/Step.lean fills with `exec`. -/

namespace Sys2Proof.Machine

/-- The timer phase after an instruction that succeeded; a fault passes through, and the step with it is discarded
(R105, R106). -/
def thenTick : Outcome → Outcome
  | .next t => .next t.tickTimers
  | .fault f => .fault f
  | .refused r => .refused r

/-- One fetch-decode-execute-timer cycle (R100 to R108). Fetch reads `pc` and `pc + 1` and faults when the higher of
them is above 0xFFF (R101). -/
def cycle (execute : Instr → State → Outcome) (s : State) : Outcome :=
  checkAddress (s.pc.toNat + 1) (thenTick (execute (decodeWord s.opcode) s.advance))

/-- A row's word placed at the program counter, where fetch reads it; where no fetch is possible (`pc` above 0xFFE)
there is no such place and nothing changes. -/
def State.placeWord (s : State) (nbits w : Nat) : State :=
  if s.pc.toNat + 1 ≤ 0xFFF then s.writeBytes s.pc.toNat (tableBytes nbits w) else s

end Sys2Proof.Machine
end

