-- ==== Sys2Proof/Machine/Flags.lean ====
section
/-! DEFINITION. The flag computations: the value each flag-writing instruction puts into `VF` (R26, R155). Collision
is `State.collides` (Machine/Ops.lean). -/

namespace Sys2Proof.Machine

/-- `ADD Vx,Vy`: carry out of bit 7, from the sum in a widened integer (R146). -/
def carryFlag (a b : Byte) : Byte := boolByte (decide (255 < a.toNat + b.toNat))

/-- `SUB Vx,Vy` of `a - b`, and `SUBN Vx,Vy` with the operands exchanged: 1 exactly when `a > b`, strict
(R147, R149). -/
def noBorrowFlag (a b : Byte) : Byte := boolByte (decide (b.toNat < a.toNat))

/-- `SHR Vx`: bit 0 before the shift (R148). -/
def lowBitFlag (a : Byte) : Byte := a &&& 1

/-- `SHL Vx`: bit 7 before the shift, as 0 or 1 (R150). -/
def highBitFlag (a : Byte) : Byte := (a >>> 7) &&& 1

/-- `ADD I,Vx`: the parameter `ADDI_FLAG` applied to the unmasked sum and the old `VF` (R6, R161). -/
def addIFlagValue (f : Config.AddIFlag) (sum : Nat) (vfOld : Byte) : Byte :=
  match f with
  | .past0x100 => boolByte (decide (0x100 < sum))
  | .past0xFF => boolByte (decide (0xFF < sum))
  | .past0x100OrOld => if 0x100 < sum then 1 else vfOld
  | .past0xFFF => boolByte (decide (0xFFF < sum))
  | .noEffect => vfOld
  | .table rows =>
    match rows.find? fun r => decide (r.1 = sum) && decide (r.2.1 = vfOld) with
    | some r => r.2.2
    | none => boolByte (decide (0x100 < sum))

end Sys2Proof.Machine
end

