-- ==== Sys2Proof/Machine/Operands.lean ====
section
/-! DEFINITION. The operand forms: how an operand becomes a value, a target or an address (R75, R76, R166). -/

namespace Sys2Proof.Machine

/-- A 12-bit immediate as a program-counter or index value, zero-extended (R75, R126, R127, R160). -/
def addrWord (nnn : Addr) : Word := nnn.setWidth 16

/-- The target of `JMP V0,addr`: the 12-bit address plus `V[0]`, not reduced to 12 bits (R131). -/
def offsetTarget (s : State) (nnn : Addr) : Word := addrWord nnn + (s.reg 0).setWidth 16

/-- The one data addressing mode: `I` plus a small offset, in unbounded arithmetic (R166). -/
def effAddr (s : State) (k : Nat) : Nat := s.i.toNat + k

/-- The sprite's left column: `V[x]` wrapped to the screen's width (R181). -/
def originX (s : State) (x : Reg) : Nat := (s.reg x).toNat % 64

/-- The sprite's top row: `V[y]` wrapped to the screen's height (R181). -/
def originY (s : State) (y : Reg) : Nat := (s.reg y).toNat % 32

/-- How many of a sprite's `n` rows from row `y0` fall on the screen (R181). -/
def visibleRows (n : Nibble) (y0 : Nat) : Nat := min n.toNat (32 - y0)

/-- The address of the glyph of a digit: the low nibble of the register, five bytes a glyph (R162). -/
def glyphAddr (b : Byte) : Word := BitVec.ofNat 16 (Config.fontBase + 5 * (b &&& 0xF).toNat)

/-- The sum `ADD I,Vx` forms, before it is masked (R161). -/
def indexSum (s : State) (x : Reg) : Nat := s.i.toNat + (s.reg x).toNat

/-- `sum & 0xFFF` (R27, R161). -/
def maskIndex (sum : Nat) : Word := BitVec.ofNat 16 (sum % 0x1000)

/-- The decimal digits of a byte, hundreds first (R163). -/
def decimalDigits (b : Byte) : List Byte := [b / 100, b / 10 % 10, b % 10]

end Sys2Proof.Machine
end

