-- ==== Sys2Proof/Machine/Alu.lean ====
section
/-! DEFINITION. Load immediate, arithmetic, logic, shift and random (spec/42_alu.md). The flag is written before the
result and each statement reads what its predecessors left, as the rules order them (R9); it matters only where the
opcode names `VF` as an operand. No instruction of this file can fault. -/

namespace Sys2Proof.Machine

/-- `LD Vx,nn` (R140). -/
def execLdImm (x : Reg) (nn : Byte) (s : State) : Outcome := .next (s.setReg x nn)

/-- `ADD Vx,nn`: wraps modulo 256, no flag (R141). -/
def execAddImm (x : Reg) (nn : Byte) (s : State) : Outcome := .next (s.setReg x (s.reg x + nn))

/-- `MOV Vx,Vy` (R142). -/
def execMov (x y : Reg) (s : State) : Outcome := .next (s.setReg x (s.reg y))

/-- `OR Vx,Vy`: `VF` is neither set nor cleared (R143). -/
def execOrReg (x y : Reg) (s : State) : Outcome := .next (s.setReg x (s.reg x ||| s.reg y))

/-- `AND Vx,Vy` (R144). -/
def execAndReg (x y : Reg) (s : State) : Outcome := .next (s.setReg x (s.reg x &&& s.reg y))

/-- `XOR Vx,Vy` (R145). -/
def execXorReg (x y : Reg) (s : State) : Outcome := .next (s.setReg x (s.reg x ^^^ s.reg y))

/-- `ADD Vx,Vy`: the sum is formed before any write (R146). -/
def execAddReg (x y : Reg) (s : State) : Outcome :=
  .next ((s.setReg Reg.vF (carryFlag (s.reg x) (s.reg y))).setReg x (s.reg x + s.reg y))

/-- The subtractions: `VF` takes the flag of the old operands, then the difference of the registers as that write left
them goes to `dst` (R147, R149). -/
def State.subtractInto (s : State) (dst a b : Reg) : State :=
  let t := s.setReg Reg.vF (noBorrowFlag (s.reg a) (s.reg b))
  t.setReg dst (t.reg a - t.reg b)

/-- `SUB Vx,Vy` (R147). -/
def execSubReg (x y : Reg) (s : State) : Outcome := .next (s.subtractInto x x y)

/-- `SUBN Vx,Vy` (R149). -/
def execSubn (x y : Reg) (s : State) : Outcome := .next (s.subtractInto x y x)

/-- `SHR Vx`: in place, `V[y]` neither read nor written (R148). -/
def execShr (x : Reg) (s : State) : Outcome :=
  let t := s.setReg Reg.vF (lowBitFlag (s.reg x))
  .next (t.setReg x (t.reg x >>> 1))

/-- `SHL Vx`: in place, `V[y]` neither read nor written (R150). -/
def execShl (x : Reg) (s : State) : Outcome :=
  let t := s.setReg Reg.vF (highBitFlag (s.reg x))
  .next (t.setReg x (t.reg x <<< 1))

/-- `RND Vx,nn`: one draw is consumed (R151). -/
def execRnd (x : Reg) (nn : Byte) (s : State) : Outcome := .next (s.takeDraw.setReg x (s.nextDraw &&& nn))

end Sys2Proof.Machine
end

