-- ==== Sys2Proof/Machine/ControlFlow.lean ====
section
/-! DEFINITION. Control flow and no-ops (spec/41_control_flow.md). In every meaning `pc` is the already-advanced
program counter (R102), and the timer phase follows in the step (R105). -/

namespace Sys2Proof.Machine

/-- `SYS addr`: nothing (R120). -/
def execSys (s : State) : Outcome := .next s

/-- `NOP.8`: nothing (R121). -/
def execNop8 (s : State) : Outcome := .next s

/-- `NOP.E`: nothing; no key is read (R122). -/
def execNopE (s : State) : Outcome := .next s

/-- `NOP.F`: nothing (R123). -/
def execNopF (s : State) : Outcome := .next s

/-- `RET` (R125). -/
def execRet (s : State) : Outcome :=
  if h : 0 < s.sp.val then .next ((s.pop h).setPc (s.top h)) else raise .stackUnderflow

/-- `JMP addr` (R126). -/
def execJmp (nnn : Addr) (s : State) : Outcome := .next (s.setPc (addrWord nnn))

/-- `CALL addr` (R127): the return address is the already-advanced `pc`. -/
def execCall (nnn : Addr) (s : State) : Outcome :=
  if h : s.sp.val < 16 then .next ((s.push s.pc h).setPc (addrWord nnn)) else raise .stackOverflow

/-- `JMP V0,addr` (R131). -/
def execJmpV0 (nnn : Addr) (s : State) : Outcome := .next (s.setPc (offsetTarget s nnn))

/-- `SE Vx,nn` (R128). -/
def execSeImm (x : Reg) (nn : Byte) (s : State) : Outcome := .next (s.skipIf (decide (s.reg x = nn)))

/-- `SNE Vx,nn` (R129). -/
def execSneImm (x : Reg) (nn : Byte) (s : State) : Outcome := .next (s.skipIf (decide (s.reg x ≠ nn)))

/-- `SE Vx,Vy` (R130). -/
def execSeReg (x y : Reg) (s : State) : Outcome := .next (s.skipIf (decide (s.reg x = s.reg y)))

/-- `SNE Vx,Vy` (R132). -/
def execSneReg (x y : Reg) (s : State) : Outcome := .next (s.skipIf (decide (s.reg x ≠ s.reg y)))

end Sys2Proof.Machine
end

