-- ==== Sys2Proof/Machine/Display.lean ====
section
/-! DEFINITION. Display (spec/44_display.md). -/

namespace Sys2Proof.Machine

/-- `CLS`: `VF` is not written (R180). -/
def execCls (s : State) : Outcome := .next s.clearFb

/-- `DRW` from an origin: the range check, the XOR of the visible rows, and `VF` as the collision flag, which is
written by every `DRW` (R181, R182). -/
def drawAt (x0 y0 : Nat) (n : Nibble) (s : State) : Outcome :=
  let rows := visibleRows n y0
  let drawn := Host.Outcome.next ((s.blit x0 y0 rows).setReg Reg.vF (boolByte (s.collides x0 y0 rows)))
  if rows = 0 then drawn else checkAddress (effAddr s (rows - 1)) drawn

/-- `DRW Vx,Vy,n`: the origin is read before `VF` is written (R181, R182 (d)). -/
def execDrw (x y : Reg) (n : Nibble) (s : State) : Outcome := drawAt (originX s x) (originY s y) n s

end Sys2Proof.Machine
end

