-- ==== Sys2Proof/Machine/IndexMemory.lean ====
section
/-! DEFINITION. The index register and memory (spec/43_index_memory.md). The range check precedes every effect
(R167), and no addressing changes `I` (R166). -/

namespace Sys2Proof.Machine

/-- `LD I,addr` (R160). -/
def execLdI (nnn : Addr) (s : State) : Outcome := .next (s.setI (addrWord nnn))

/-- `ADD I,Vx`: `VF` by the parameter `ADDI_FLAG`, `I` masked to 12 bits (R161). -/
def execAddI (x : Reg) (s : State) : Outcome :=
  .next ((s.setReg Reg.vF (addIFlagValue s.config.addIFlag (indexSum s x) (s.reg Reg.vF))).setI
    (maskIndex (indexSum s x)))

/-- `LDF Vx`: memory is not accessed (R162). -/
def execLdF (x : Reg) (s : State) : Outcome := .next (s.setI (glyphAddr (s.reg x)))

/-- `BTD Vx` (R163). -/
def execBtd (x : Reg) (s : State) : Outcome :=
  checkAddress (effAddr s 2) (.next (s.writeBytes (effAddr s 0) (decimalDigits (s.reg x))))

/-- `ST [I],Vx` (R164). -/
def execStMem (x : Reg) (s : State) : Outcome :=
  checkAddress (effAddr s x.val) (.next (s.writeBytes (effAddr s 0) (s.regsUpTo x)))

/-- `LD Vx,[I]` (R165). -/
def execLdMem (x : Reg) (s : State) : Outcome :=
  checkAddress (effAddr s x.val) (.next (s.loadRegs x (effAddr s 0)))

end Sys2Proof.Machine
end

