-- ==== Sys2Proof/Machine/KeysTimers.lean ====
section
/-! DEFINITION. Keys and timers (spec/45_keys_timers.md). The keys are read-only to every instruction (R37). -/

namespace Sys2Proof.Machine

/-- Go on with the key a register names, or report that it names none (R190, R191, R204). -/
def withKeyIndex (b : Byte) (k : Key → Outcome) : Outcome :=
  if h : b.toNat < 16 then k ⟨b.toNat, h⟩ else raise (.keyIndexOutOfRange b)

/-- `SKP Vx` (R190). -/
def execSkp (x : Reg) (s : State) : Outcome :=
  withKeyIndex (s.reg x) fun k => .next (s.skipIf (s.keyDown k))

/-- `SKNP Vx` (R191). -/
def execSknp (x : Reg) (s : State) : Outcome :=
  withKeyIndex (s.reg x) fun k => .next (s.skipIf (!s.keyDown k))

/-- What `KEY Vx` stores for a pressed key, by the parameter `KEY_STORE_INDEX` (R192 (b)). -/
def keyValue (storeIndex : Bool) (k : Key) : Byte := if storeIndex then BitVec.ofNat 8 k.val else 1

/-- `KEY Vx`: the least pressed key, or the program counter goes back to this instruction (R192). -/
def execKey (x : Reg) (s : State) : Outcome :=
  match s.leastKey with
  | some k => .next (s.setReg x (keyValue s.config.keyStoreIndex k))
  | none => .next (s.setPc (s.pc - 2))

/-- `LD Vx,DT` (R193). -/
def execLdVxDT (x : Reg) (s : State) : Outcome := .next (s.setReg x s.dt)

/-- `LD DT,Vx` (R194). -/
def execLdDTVx (x : Reg) (s : State) : Outcome := .next (s.setDt (s.reg x))

/-- `LD ST,Vx` (R195). -/
def execLdSTVx (x : Reg) (s : State) : Outcome := .next (s.setSt (s.reg x))

end Sys2Proof.Machine
end

