-- ==== Sys2Proof/Machine/Step.lean ====
section
/-! DEFINITION. One step of the machine (R100), and where the host's one-word tests place their word. -/

namespace Sys2Proof.Machine

/-- `step()`. -/
def step (s : State) : Host.Outcome State Fault Refusal := cycle exec s

/-- The state with an instruction word stored where the next step fetches (log entry 6). -/
def State.withFetchWord (s : State) (nbits w : Nat) : State := s.placeWord nbits w

end Sys2Proof.Machine
end

