-- ==== Sys2Proof/Machine/Session.lean ====
section
/-! DEFINITION. The operations the host performs on the core (R42, R238) and the signals the core shows it: reset
(R230), program loading (R233), key writes (R37), the framebuffer view (R184), the tone bit (R31), the fault report
(R207). The host acts only between steps (R43, R61), so a session is a sequence of whole operations. -/

namespace Sys2Proof.Machine

/-- `initialize` (R230): the reset state, whatever the state was. The configuration stays (R32, R45), and the random
source goes on with draws it has not given yet, since the new seed is unspecified (R232; log entry 2). -/
def State.hostInit (s : State) : State := State.resetWith s.config s.draws

/-- `load_program(bytes)` (R233 to R235): the size check precedes the copy, and nothing but the window is written. -/
def loadProgram (bytes : List Byte) (s : State) : Outcome :=
  if bytes.length ≤ Config.maxProg then .next (s.writeBytes Config.progBase bytes)
  else raise (.programTooLarge bytes.length)

/-- `tone_active = (ST != 0)` (R31). -/
def State.toneActive (s : State) : Bool := decide (s.st ≠ 0)

/-- The presentation view: 2048 colours, row by row (R184). -/
def State.view (s : State) : List (BitVec 32) :=
  (List.range 2048).map fun k => if s.pixel (k % 64) (k / 64) then Config.onColor else Config.offColor

/-- What the host can ask of the core (R42). -/
inductive HostOp where
  /-- `initialize`. -/
  | init
  /-- `load_program(bytes)`. -/
  | load (bytes : List Byte)
  /-- `step()`. -/
  | step
  /-- A write of one key's state. -/
  | writeKey (k : Key) (down : Bool)
  /-- A read of the presentation view. -/
  | readView
  /-- A read of the tone bit. -/
  | readTone
deriving DecidableEq, Repr

/-- What the core answers (R207, R238). -/
inductive Reply where
  /-- The operation succeeded. -/
  | ok
  /-- The operation reports a fault and has changed nothing. -/
  | fault (f : Fault)
  /-- The model gives the operation no meaning in this session. -/
  | refused (r : Refusal)
  /-- The presentation view. -/
  | view (pixels : List (BitVec 32))
  /-- The tone bit. -/
  | tone (active : Bool)
deriving DecidableEq, Repr

/-- A core in the hands of a host: before the first `initialize` it has a configuration and no specified state
(R237); afterwards it has a state. -/
inductive Session where
  | uninitialized (config : Config)
  | running (s : State)
deriving DecidableEq, Repr

/-- An outcome as the host sees it: on a fault the state is the one before the operation (R106, R208). -/
def settle (before : State) : Outcome → Session × Reply
  | .next t => (.running t, .ok)
  | .fault f => (.running before, .fault f)
  | .refused r => (.running before, .refused r)

/-- One host operation. Before the first `initialize` every other operation is refused (R237). -/
def perform : Session → HostOp → Session × Reply
  | .uninitialized c, .init => (.running (State.resetWith c 0), .ok)
  | .uninitialized c, .load _ => (.uninitialized c, .refused .notInitialized)
  | .uninitialized c, .step => (.uninitialized c, .refused .notInitialized)
  | .uninitialized c, .writeKey _ _ => (.uninitialized c, .refused .notInitialized)
  | .uninitialized c, .readView => (.uninitialized c, .refused .notInitialized)
  | .uninitialized c, .readTone => (.uninitialized c, .refused .notInitialized)
  | .running s, .init => (.running s.hostInit, .ok)
  | .running s, .load bytes => settle s (loadProgram bytes s)
  | .running s, .step => settle s (step s)
  | .running s, .writeKey k down => (.running (s.setKey k down), .ok)
  | .running s, .readView => (.running s, .view s.view)
  | .running s, .readTone => (.running s, .tone s.toneActive)

end Sys2Proof.Machine
end

