-- ==== Sys2Proof/Safety.lean ====
section
/-! DEFINITION. What counts as a safe run and as a legal state, and the frame an instruction keeps, in the terms the
statements use. -/

namespace Sys2Proof.Machine

/-- The invariants of R44, which hold after `initialize` and after every successful step. The widths of the fields
give the rest of R44's list (`SP`, `V`, `DT`, `ST`, `FB`). -/
structure State.Legal (s : State) : Prop where
  /-- `I <= 0xFFF` (R27). -/
  index : s.i.toNat ≤ 0xFFF
  /-- `pc <= 0x10FE` (R25). -/
  pc : s.pc.toNat ≤ 0x10FE
  /-- Every stack slot is at most 0x1000 (R35). -/
  stack : ∀ k : Fin 16, s.stack[k.val].toNat ≤ 0x1000

/-- A run of `k` steps from a state, each successful (R210: a fault refutes it). -/
def RunsTo (s : State) (k : Nat) (t : State) : Prop := Sys2Proof.core.run k s = .next t

/-- The spec's suggested end of a program: the program counter is at a `JMP` to its own address (R251). -/
def State.Finished (s : State) (a : Addr) : Prop := s.pc = a.setWidth 16 ∧ s.opcode = encode (.jmp a)

/-- Fetch is possible: both bytes of the opcode are inside memory (R101). -/
def State.CanFetch (s : State) : Prop := s.pc.toNat ≤ 0xFFE

/-- The parts of the state a frame can leave free, beside the general registers. -/
inductive Part where
  | pc | index | stack | delay | sound | screen | memory | draws
deriving DecidableEq, Repr

/-- From `s` to `t` nothing changes but the general registers in `regs` and the parts in `free`. The keys and the
configuration have no part: no instruction changes them (R32, R37). Memory and screen are compared by what a read of
each byte and of each pixel gives. -/
structure Frame (s t : State) (regs : List Reg) (free : List Part) : Prop where
  regs : ∀ r, r ∉ regs → t.reg r = s.reg r
  pc : .pc ∉ free → t.pc = s.pc
  index : .index ∉ free → t.i = s.i
  sp : .stack ∉ free → t.sp = s.sp
  stack : .stack ∉ free → t.stack = s.stack
  delay : .delay ∉ free → t.dt = s.dt
  sound : .sound ∉ free → t.st = s.st
  screen : .screen ∉ free → ∀ x y, t.pixel x y = s.pixel x y
  memory : .memory ∉ free → ∀ a, t.readByte a = s.readByte a
  draws : .draws ∉ free → t.draws = s.draws
  keys : t.keys = s.keys
  config : t.config = s.config

end Sys2Proof.Machine
end

