-- ==== Sys2Proof/Certificates/Slice0/Obligations.lean ====
section
/-! DEFINITION. The statements for the provers. A statement about an instruction speaks of `exec` on a state whose
program counter is already advanced (R102); the decoding of the instruction is stated beside its effect, and
`Obligations.StepRunsTheDecodedInstruction` carries it into `step`. -/

open Sys2Proof Sys2Proof.Machine

namespace Sys2Proof.Claims

/-- Every word the selector takes decodes to the instruction named. -/
def DecodesTo (select : Word → Prop) (i : Word → Instr) : Prop := ∀ w, select w → decodeWord w = i w

/-- Selected by the high nibble alone (R77). -/
def inFamily (f : Nibble) (w : Word) : Prop := family w = f

/-- Selected by the high and the low nibble (R78, R79, R80). -/
def inFamilyLow (f n : Nibble) (w : Word) : Prop := family w = f ∧ fieldN w = n

/-- Selected by the high nibble 0xF and the low byte (R81). -/
def inFamilyByte (k : Byte) (w : Word) : Prop := family w = 0xF ∧ fieldNN w = k

/-- The instruction the next step executes, where it can fetch one. -/
def next (s : State) : Instr := decodeWord s.opcode

/-- A flag's value as a number: 1 or 0. -/
def flag (p : Prop) [Decidable p] : Nat := if p then 1 else 0

/-- The table of R24: the program counter after a successful step that executes `i` from `s`. -/
def pcAfter (i : Instr) (s : State) : Nat :=
  let a := s.pc.toNat
  match i with
  | .seImm x nn => if s.reg x = nn then a + 4 else a + 2
  | .sneImm x nn => if s.reg x ≠ nn then a + 4 else a + 2
  | .seReg x y => if s.reg x = s.reg y then a + 4 else a + 2
  | .sneReg x y => if s.reg x ≠ s.reg y then a + 4 else a + 2
  | .skp x => if ∃ k : Key, k.val = (s.reg x).toNat ∧ s.keyDown k = true then a + 4 else a + 2
  | .sknp x => if ∃ k : Key, k.val = (s.reg x).toNat ∧ s.keyDown k = false then a + 4 else a + 2
  | .jmp nnn => nnn.toNat
  | .call nnn => nnn.toNat
  | .ret => (s.stack.toList.getD (s.sp.val - 1) 0).toNat
  | .jmpV0 nnn => nnn.toNat + (s.reg 0).toNat
  | .key _ => if ∃ k : Key, s.keyDown k = true then a + 2 else a
  | .cls | .sys _ | .ldImm _ _ | .addImm _ _ | .mov _ _ | .orReg _ _ | .andReg _ _ | .xorReg _ _ | .addReg _ _ => a + 2
  | .subReg _ _ | .shr _ _ | .subn _ _ | .shl _ _ | .nop8 _ _ _ | .ldI _ | .rnd _ _ | .drw _ _ _ | .nopE _ _ => a + 2
  | .ldVxDT _ | .ldDTVx _ | .ldSTVx _ | .addI _ | .ldF _ | .btd _ | .stMem _ | .ldMem _ | .nopF _ _ => a + 2

/-- The rows of `DRW` that fall on the screen (R181): `min(n, 32 - y0)`. -/
def rowsDrawn (s : State) (y : Reg) (n : Nibble) : Nat := min n.toNat (32 - (s.reg y).toNat % 32)

/-- The table of R200 for `step`: the fault a step from `s` raises, if it raises one. Fetch comes first (R209). -/
def faultOf (s : State) : Option Fault :=
  if 0xFFE < s.pc.toNat then some (.addressOutOfRange (s.pc.toNat + 1))
  else
    match next s with
    | .call _ => if s.sp.val = 16 then some .stackOverflow else none
    | .ret => if s.sp.val = 0 then some .stackUnderflow else none
    | .skp x => if 15 < (s.reg x).toNat then some (.keyIndexOutOfRange (s.reg x)) else none
    | .sknp x => if 15 < (s.reg x).toNat then some (.keyIndexOutOfRange (s.reg x)) else none
    | .drw _ y n =>
      if 1 ≤ rowsDrawn s y n ∧ 0xFFF < s.i.toNat + rowsDrawn s y n - 1
      then some (.addressOutOfRange (s.i.toNat + rowsDrawn s y n - 1)) else none
    | .btd _ => if 0xFFF < s.i.toNat + 2 then some (.addressOutOfRange (s.i.toNat + 2)) else none
    | .stMem x => if 0xFFF < s.i.toNat + x.val then some (.addressOutOfRange (s.i.toNat + x.val)) else none
    | .ldMem x => if 0xFFF < s.i.toNat + x.val then some (.addressOutOfRange (s.i.toNat + x.val)) else none
    | .cls | .sys _ | .jmp _ | .seImm _ _ | .sneImm _ _ | .seReg _ _ | .ldImm _ _ | .addImm _ _ | .mov _ _ => none
    | .orReg _ _ | .andReg _ _ | .xorReg _ _ | .addReg _ _ | .subReg _ _ | .shr _ _ | .subn _ _ | .shl _ _ => none
    | .nop8 _ _ _ | .sneReg _ _ | .ldI _ | .jmpV0 _ | .rnd _ _ | .nopE _ _ | .ldVxDT _ | .key _ => none
    | .ldDTVx _ | .ldSTVx _ | .addI _ | .ldF _ | .nopF _ _ => none

/-- The general registers an instruction may write: the one its opcode names as destination, the range `V0` to `Vx` of
`LD Vx,[I]`, and `VF` where the instruction has a flag (R21, R26). -/
def writtenRegs : Instr → List Reg
  | .ldImm x _ | .addImm x _ | .mov x _ | .orReg x _ | .andReg x _ | .xorReg x _ => [x]
  | .rnd x _ | .ldVxDT x | .key x => [x]
  | .addReg x _ | .subReg x _ | .shr x _ | .subn x _ | .shl x _ => [x, 15]
  | .drw _ _ _ | .addI _ => [15]
  | .ldMem x => (List.finRange 16).filter (· ≤ x)
  | .cls | .ret | .sys _ | .jmp _ | .call _ | .seImm _ _ | .sneImm _ _ | .seReg _ _ | .nop8 _ _ _ | .sneReg _ _ => []
  | .ldI _ | .jmpV0 _ | .sknp _ | .skp _ | .nopE _ _ | .ldDTVx _ | .ldSTVx _ | .ldF _ | .btd _ | .stMem _ => []
  | .nopF _ _ => []

/-- The sprite pixel that `DRW` puts at column `px`, row `py` of the screen (R181, R182): bit 7 of a row byte is the
leftmost of eight columns from the origin, and nothing wraps. -/
def spriteAt (s : State) (x y : Reg) (n : Nibble) (px py : Nat) : Prop :=
  ∃ r c : Nat, r < rowsDrawn s y n ∧ c < 8 ∧ px = (s.reg x).toNat % 64 + c ∧ px ≤ 63 ∧
    py = (s.reg y).toNat % 32 + r ∧ (s.readByte (s.i.toNat + r)).getLsbD (7 - c) = true

/-- `DRW` succeeds on a state: no row it would draw lies above 0xFFF (R181). -/
def drawInRange (s : State) (y : Reg) (n : Nibble) : Prop :=
  rowsDrawn s y n = 0 ∨ s.i.toNat + rowsDrawn s y n - 1 ≤ 0xFFF

/-- An outcome with every state in it changed by `f`. -/
def mapState (f : State → State) : Outcome → Outcome
  | .next t => .next (f t)
  | .fault r => .fault r
  | .refused r => .refused r

/-- A session after a sequence of host operations. -/
def afterOps (c : Config) (ops : List HostOp) : Session :=
  ops.foldl (fun σ op => (perform σ op).1) (.uninitialized c)

end Sys2Proof.Claims

open Sys2Proof.Claims

/-! ## Encoding and decoding -/

/-- R70, R82: the canonical bytes of every well-formed instruction decode to it, with every operand, and exactly two
bytes are taken. -/
def Obligations.DecodeInvertsEncode : Prop :=
  ∀ i : Instr, i.WellFormed → ∀ rest, decodeBytes (encodeBytes i ++ rest) = .ok (i, rest)

/-- R83, R86: decode is total and every opcode stands for an instruction of the table. -/
def Obligations.EveryOpcodeDecodes : Prop :=
  ∀ b0 b1 rest, ∃ i : Instr, decodeBytes (b0 :: b1 :: rest) = .ok (i, rest) ∧ i.WellFormed

/-- R83: the first row of the opcode table that accepts a word is the row of the instruction it decodes to. -/
def Obligations.DecodeFollowsTheOpcodeTable : Prop :=
  opcodeTable.length = 38 ∧ ∀ w, ∃ r, rowOf w = some r ∧ r.mnemonic = (decodeWord w).mnemonic

/-- R73 (its list of consequences is the spec's own inference, marked "derived" there, on its decision D4), R85: which
bits each family's decoding depends on, both ways. Words of different families decode differently. In a family that
ignores bits, two words decode alike exactly when they agree on the bits that are looked at: `x` and `y` in 0x5 and
0x9, `x` and the low nibble in 0xE, the low nibble in 0x0 where one of them is `CLS` or `RET`. In every other family,
and among the words of `SYS`, which carry the rest as their operand, words that decode alike are equal. `0x0000` is
`CLS`, and an unassigned sub-opcode executes as a no-op. -/
def Obligations.DecodeLooksAtTheBitsItShould : Prop :=
  (∀ w w', decodeWord w = decodeWord w' → family w = family w') ∧
  (∀ w w', family w = family w' → (family w = 0x5 ∨ family w = 0x9) →
    (decodeWord w = decodeWord w' ↔ fieldX w = fieldX w' ∧ fieldY w = fieldY w')) ∧
  (∀ w w', family w = 0x0 → family w' = 0x0 → (fieldN w = 0x0 ∨ fieldN w = 0xE) →
    (decodeWord w = decodeWord w' ↔ fieldN w = fieldN w')) ∧
  (∀ w w', family w = 0x0 → family w' = 0x0 → fieldN w ≠ 0x0 → fieldN w ≠ 0xE →
    decodeWord w = decodeWord w' → w = w') ∧
  (∀ w w', family w = 0xE → family w' = 0xE →
    (decodeWord w = decodeWord w' ↔ fieldX w = fieldX w' ∧ fieldN w = fieldN w')) ∧
  (∀ w w', family w = family w' → family w ∉ [0x0#4, 0x5#4, 0x9#4, 0xE#4] → decodeWord w = decodeWord w' → w = w') ∧
  decodeWord 0x0000 = .cls ∧
  (∀ w s, (family w = 0x0 ∧ unassigned0 (fieldN w)) ∨ (family w = 0x8 ∧ unassigned8 (fieldN w)) ∨
      (family w = 0xE ∧ unassignedE (fieldN w)) ∨ (family w = 0xF ∧ unassignedF (fieldNN w)) →
    exec (decodeWord w) s = .next s)

/-- Words written out from the encodings of R77 to R81 decode to the instructions they stand for. -/
def Obligations.SampleWordsDecode : Prop :=
  decodeWord 0x00E0 = .cls ∧ decodeWord 0xA123 = .ldI 0x123 ∧ decodeWord 0xB300 = .jmpV0 0x300 ∧
  decodeWord 0x332A = .seImm 3 0x2A ∧ decodeWord 0x512F = .seReg 1 2 ∧ decodeWord 0x8F15 = .subReg 15 1 ∧
  decodeWord 0xD015 = .drw 0 1 5 ∧ decodeWord 0xE20E = .skp 2 ∧ decodeWord 0xF265 = .ldMem 2 ∧
  decodeWord 0xF175 = .nopF 1 0x75

/-! ## The step cycle -/

/-- R100, R102, R105, R106: when the two bytes at the program counter decode to an instruction, the step is that
instruction on the state with the program counter advanced by 2, and then one tick of each timer; a fault is the
step's fault. -/
def Obligations.StepRunsTheDecodedInstruction : Prop :=
  ∀ (s : State) (i : Instr), s.CanFetch → i.WellFormed →
    decodeBytes [s.readByte s.pc.toNat, s.readByte (s.pc.toNat + 1)] = .ok (i, []) →
    step s = match exec i (s.setPc (s.pc + 2)) with
      | .next t => .next ((t.setDt (decrement t.dt)).setSt (decrement t.st))
      | .fault f => .fault f
      | .refused r => .refused r

/-- R101: the opcode is big-endian, and a fetch above 0xFFE faults. -/
def Obligations.FetchIsBigEndianAndInRange : Prop :=
  (∀ s : State, s.opcode.toNat = (s.readByte s.pc.toNat).toNat * 256 + (s.readByte (s.pc.toNat + 1)).toNat) ∧
  (∀ s : State, 0xFFE < s.pc.toNat → step s = .fault (.addressOutOfRange (s.pc.toNat + 1)))

/-- R24: how each instruction leaves the program counter; `CALL` pushes `a + 2`; a faulting step leaves it. -/
def Obligations.ProgramCounterAfterEachInstruction : Prop :=
  (∀ s t, step s = .next t → t.pc.toNat = pcAfter (next s) s) ∧
  (∀ s t nnn, step s = .next t → next s = .call nnn → ∀ h : s.sp.val < 16, t.stack[s.sp.val].toNat = s.pc.toNat + 2) ∧
  (∀ s f, step s = .fault f → ∀ t r, perform (.running s) .step = (.running t, r) → t.pc = s.pc)

/-- R105: every successful step decrements each nonzero timer once, after the instruction's own write; `LD Vx,DT` reads
the value before the decrement. -/
def Obligations.TimersTickOncePerStep : Prop :=
  ∀ s t, step s = .next t →
    ((∀ x, next s ≠ .ldDTVx x) → t.dt.toNat = s.dt.toNat - 1) ∧
    (∀ x, next s = .ldDTVx x → t.dt.toNat = (s.reg x).toNat - 1) ∧
    ((∀ x, next s ≠ .ldSTVx x) → t.st.toNat = s.st.toNat - 1) ∧
    (∀ x, next s = .ldSTVx x → t.st.toNat = (s.reg x).toNat - 1) ∧
    (∀ x, next s = .ldVxDT x → t.reg x = s.dt)

/-- R196: with no timer write in between, `k` later steps leave `max(v - k, 0)`, and an `LD Vx,DT` executed next reads
that. -/
def Obligations.TimersCountStepsDown : Prop :=
  ∀ (k : Nat) (s t : State), RunsTo s k t →
    ((∀ j u x, j < k → RunsTo s j u → next u ≠ .ldDTVx x) →
      t.dt.toNat = s.dt.toNat - k ∧
      ∀ x, t.CanFetch → next t = .ldVxDT x → ∃ u, step t = .next u ∧ (u.reg x).toNat = s.dt.toNat - k) ∧
    ((∀ j u x, j < k → RunsTo s j u → next u ≠ .ldSTVx x) → t.st.toNat = s.st.toNat - k)

/-- R108: a step ends in a next state or in one of the four step faults. Before `initialize` it is refused (R237, the
spec's decision D26; that the refusal lives in the session is the model's choice, log entry 11). -/
def Obligations.StepEndsInANextStateOrAStepFault : Prop :=
  (∀ s, (∃ t, step s = .next t) ∨ (∃ f, step s = .fault f ∧ 2 ≤ f.code ∧ f.code ≤ 5)) ∧
  (∀ c, perform (.uninitialized c) .step = (.uninitialized c, .refused .notInitialized))

/-- R109 (the spec's own inference; the draw counter is log entry 2): apart from `RND` a step does not depend on the
random source, and apart from `SKP`, `SKNP` and `KEY` it does not depend on the keys. -/
def Obligations.StepIgnoresInputsItDoesNotRead : Prop :=
  (∀ s d, (∀ x nn, next s ≠ .rnd x nn) →
    step { s with draws := d } = mapState (fun t => { t with draws := d }) (step s)) ∧
  (∀ s ks, (∀ x, next s ≠ .skp x ∧ next s ≠ .sknp x ∧ next s ≠ .key x) →
    step { s with keys := ks } = mapState (fun t => { t with keys := ks }) (step s))

/-! ## Faults -/

/-- R200: the faults, exactly when they are raised, with the information and the code the table gives; no other host
operation raises one. -/
def Obligations.FaultsAreExactlyTheTable : Prop :=
  (∀ s f, step s = .fault f ↔ faultOf s = some f) ∧
  (∀ s bytes f, loadProgram bytes s = .fault f ↔ 3584 < bytes.length ∧ f = .programTooLarge bytes.length) ∧
  (∀ s op f, op ≠ .step → (∀ bytes, op ≠ .load bytes) → (perform (.running s) op).2 ≠ .fault f) ∧
  (∀ n a v, (Fault.programTooLarge n).code = 1 ∧ Fault.stackOverflow.code = 2 ∧ Fault.stackUnderflow.code = 3 ∧
    (Fault.keyIndexOutOfRange v).code = 4 ∧ (Fault.addressOutOfRange a).code = 5)

/-- R106, R208, R210: a faulting operation leaves the whole state as it was, and a faulting step raises the same fault
again, whatever the keys are set to in between (the spec's own inference in R210). -/
def Obligations.FaultsChangeNothing : Prop :=
  (∀ s f, step s = .fault f → perform (.running s) .step = (.running s, .fault f)) ∧
  (∀ s bytes, 3584 < bytes.length →
    perform (.running s) (.load bytes) = (.running s, .fault (.programTooLarge bytes.length))) ∧
  (∀ s f ks, step s = .fault f → step { s with keys := ks } = .fault f)

/-! ## Invariants -/

/-- R44 (the spec's own inference, marked "derived" there): every step from a legal state leads to a legal state. -/
def Obligations.LegalStatesStayLegal : Prop := ∀ s t : State, s.Legal → step s = .next t → t.Legal

/-- R44: the state after reset is legal, for every configuration. -/
def Obligations.ResetIsLegal : Prop := State.reset.Legal ∧ ∀ c d, (State.resetWith c d).Legal

/-- R50, R56: every step keeps memory inside the address space and in canonical form (the form is the model's choice,
log entry 7). -/
def Obligations.MemoryStaysCanonical : Prop :=
  ∀ s t : State, s.MemoryCanonical → step s = .next t → t.MemoryCanonical

/-- Reset memory is canonical (log entry 7). -/
def Obligations.ResetMemoryIsCanonical : Prop :=
  State.reset.MemoryCanonical ∧ ∀ c d, (State.resetWith c d).MemoryCanonical

/-- Two canonical memories that read alike everywhere are equal data (log entry 7). -/
def Obligations.CanonicalMemoryIsUnique : Prop :=
  ∀ (font : Vector Byte 80) (m m' : Memory), Memory.wf font m = true → Memory.wf font m' = true →
    (∀ a, Memory.read font m a = Memory.read font m' a) → m = m'

/-- R44, R238 (R44 is the spec's own inference, the canonical form log entry 7, the session log entries 11 and 17):
every host operation, from every legal state with canonical memory, leaves one, with the same configuration; so
whatever sequence of operations a host performs on a core, the core's state is legal, its memory is canonical and its
configuration is the one it was built with. -/
def Obligations.EverySessionStaysLegal : Prop :=
  (∀ (s : State) (op : HostOp), s.Legal → s.MemoryCanonical →
    ∃ t, (perform (.running s) op).1 = .running t ∧ t.Legal ∧ t.MemoryCanonical ∧ t.config = s.config) ∧
  ∀ (c : Config) (ops : List HostOp),
    match afterOps c ops with
    | .uninitialized c' => c' = c
    | .running s => s.Legal ∧ s.MemoryCanonical ∧ s.config = c

/-! ## What only some instructions write -/

/-- R20, R21, R26: a step writes no general register but the instruction's destinations. -/
def Obligations.StepWritesOnlyDestinationRegisters : Prop :=
  ∀ s t, step s = .next t → ∀ r, r ∉ writtenRegs (next s) → t.reg r = s.reg r

/-- R26: `VF` after each instruction that writes it as a side effect, where the opcode does not name it as `x`; no other
instruction writes `VF` unless it names it as `x` or loads it. -/
def Obligations.FlagAfterEachInstruction : Prop :=
  ∀ s t, step s = .next t →
    match next s with
    | .addReg x y => x ≠ 15 → (t.reg 15).toNat = flag (255 < (s.reg x).toNat + (s.reg y).toNat)
    | .subReg x y => x ≠ 15 → (t.reg 15).toNat = flag ((s.reg y).toNat < (s.reg x).toNat)
    | .subn x y => x ≠ 15 → (t.reg 15).toNat = flag ((s.reg x).toNat < (s.reg y).toNat)
    | .shr x _ => x ≠ 15 → (t.reg 15).toNat = (s.reg x).toNat % 2
    | .shl x _ => x ≠ 15 → (t.reg 15).toNat = (s.reg x).toNat / 128
    | .drw x y n =>
      ((∃ px py, spriteAt s x y n px py ∧ s.pixel px py = true) → t.reg 15 = 1) ∧
      ((∀ px py, spriteAt s x y n px py → s.pixel px py = false) → t.reg 15 = 0)
    | .addI x => t.reg 15 = addIFlagValue s.config.addIFlag (s.i.toNat + (s.reg x).toNat) (s.reg 15)
    | i => 15 ∉ writtenRegs i → t.reg 15 = s.reg 15

/-- R27 to R30, R34 to R36, R40: `I`, `SP`, the stack slots, the framebuffer and the draw count change only by the
instructions the rules name; the keys and the configuration by none. -/
def Obligations.SpecialStateChangesOnlyByItsWriters : Prop :=
  ∀ s t, step s = .next t →
    ((∀ x nnn, next s ≠ .ldI nnn ∧ next s ≠ .addI x ∧ next s ≠ .ldF x) → t.i = s.i) ∧
    ((∀ nnn, next s ≠ .call nnn) → t.stack = s.stack ∧ (next s ≠ .ret → t.sp = s.sp)) ∧
    (∀ nnn, next s = .call nnn → t.sp.val = s.sp.val + 1 ∧
      ∀ k : Fin 16, k.val ≠ s.sp.val → t.stack[k.val] = s.stack[k.val]) ∧
    (next s = .ret → t.sp.val + 1 = s.sp.val) ∧
    ((next s ≠ .cls ∧ ∀ x y n, next s ≠ .drw x y n) → ∀ px py, t.pixel px py = s.pixel px py) ∧
    ((∀ x nn, next s ≠ .rnd x nn) → t.draws = s.draws) ∧
    (∀ x nn, next s = .rnd x nn → t.draws = s.draws + 1) ∧
    t.keys = s.keys ∧ t.config = s.config

/-- R56, R66: only `BTD` and `ST [I],Vx` write memory, and they write only the bytes the rules name. -/
def Obligations.MemoryChangesOnlyWhereStored : Prop :=
  ∀ s t, step s = .next t → ∀ a,
    match next s with
    | .btd _ => (a < s.i.toNat ∨ s.i.toNat + 2 < a) → t.readByte a = s.readByte a
    | .stMem x => (a < s.i.toNat ∨ s.i.toNat + x.val < a) → t.readByte a = s.readByte a
    | _ => t.readByte a = s.readByte a

/-! ## Control flow -/

/-- R120 to R123: `SYS`, `NOP.8`, `NOP.E` and `NOP.F` do nothing. -/
def Obligations.NoOpsDoNothing : Prop :=
  DecodesTo (fun w => family w = 0x0 ∧ fieldN w ≠ 0x0 ∧ fieldN w ≠ 0xE) (fun w => .sys (fieldNNN w)) ∧
  DecodesTo (fun w => family w = 0x8 ∧ fieldN w ∈ [0x8#4, 0x9#4, 0xA#4, 0xB#4, 0xC#4, 0xD#4, 0xF#4])
    (fun w => .nop8 (fieldX w) (fieldY w) (fieldN w)) ∧
  DecodesTo (fun w => family w = 0xE ∧ fieldN w ≠ 0x1 ∧ fieldN w ≠ 0xE) (fun w => .nopE (fieldX w) (fieldN w)) ∧
  DecodesTo (fun w => family w = 0xF ∧
      fieldNN w ∉ [0x07#8, 0x0A#8, 0x15#8, 0x18#8, 0x1E#8, 0x29#8, 0x33#8, 0x55#8, 0x65#8])
    (fun w => .nopF (fieldX w) (fieldNN w)) ∧
  (∀ s nnn, exec (.sys nnn) s = .next s) ∧ (∀ s x y n, exec (.nop8 x y n) s = .next s) ∧
  (∀ s x n, exec (.nopE x n) s = .next s) ∧ (∀ s x k, exec (.nopF x k) s = .next s)

/-- R126, R131: the jumps set the program counter to the 12-bit address, plus `V[0]` for `JMP V0,addr`, unmasked. -/
def Obligations.JumpsSetTheProgramCounter : Prop :=
  DecodesTo (inFamily 0x1) (fun w => .jmp (fieldNNN w)) ∧
  DecodesTo (inFamily 0xB) (fun w => .jmpV0 (fieldNNN w)) ∧
  (∀ s nnn, ∃ t, exec (.jmp nnn) s = .next t ∧ t.pc.toNat = nnn.toNat ∧ Frame s t [] [.pc]) ∧
  (∀ s nnn, ∃ t, exec (.jmpV0 nnn) s = .next t ∧ t.pc.toNat = nnn.toNat + (s.reg 0).toNat ∧ Frame s t [] [.pc])

/-- R127: `CALL addr` pushes the program counter and jumps; with 16 entries it faults. -/
def Obligations.CallPushesAndJumps : Prop :=
  DecodesTo (inFamily 0x2) (fun w => .call (fieldNNN w)) ∧
  (∀ s nnn, ∀ h : s.sp.val < 16, ∃ t, exec (.call nnn) s = .next t ∧ t.pc.toNat = nnn.toNat ∧
    t.sp.val = s.sp.val + 1 ∧ t.stack[s.sp.val] = s.pc ∧
    (∀ k : Fin 16, k.val ≠ s.sp.val → t.stack[k.val] = s.stack[k.val]) ∧ Frame s t [] [.pc, .stack]) ∧
  (∀ s nnn, s.sp.val = 16 → exec (.call nnn) s = .fault .stackOverflow)

/-- R125: `RET` pops the program counter and keeps the slot's value; with no entry it faults. -/
def Obligations.RetPopsTheProgramCounter : Prop :=
  DecodesTo (inFamilyLow 0x0 0xE) (fun _ => .ret) ∧
  (∀ s, ∀ h : 0 < s.sp.val, ∃ t, exec .ret s = .next t ∧ t.pc = s.stack[s.sp.val - 1] ∧
    t.sp.val = s.sp.val - 1 ∧ t.stack = s.stack ∧ Frame s t [] [.pc, .stack]) ∧
  (∀ s, s.sp.val = 0 → exec .ret s = .fault .stackUnderflow)

/-- R125: a `RET` after a `CALL` comes back to the instruction after the call site. -/
def Obligations.RetUndoesCall : Prop :=
  ∀ s nnn, s.sp.val < 16 → ∃ t, exec (.call nnn) s = .next t ∧
    ∀ u, u.sp = t.sp → u.stack = t.stack → ∃ v, exec .ret u = .next v ∧ v.pc = s.pc ∧ v.sp = s.sp

/-- R128, R129, R130, R132: the comparison skips. -/
def Obligations.ComparisonSkips : Prop :=
  DecodesTo (inFamily 0x3) (fun w => .seImm (fieldX w) (fieldNN w)) ∧
  DecodesTo (inFamily 0x4) (fun w => .sneImm (fieldX w) (fieldNN w)) ∧
  DecodesTo (inFamily 0x5) (fun w => .seReg (fieldX w) (fieldY w)) ∧
  DecodesTo (inFamily 0x9) (fun w => .sneReg (fieldX w) (fieldY w)) ∧
  (∀ s x nn, ∃ t, exec (.seImm x nn) s = .next t ∧ Frame s t [] [.pc] ∧
    (s.reg x = nn → t.pc = s.pc + 2) ∧ (s.reg x ≠ nn → t.pc = s.pc)) ∧
  (∀ s x nn, ∃ t, exec (.sneImm x nn) s = .next t ∧ Frame s t [] [.pc] ∧
    (s.reg x ≠ nn → t.pc = s.pc + 2) ∧ (s.reg x = nn → t.pc = s.pc)) ∧
  (∀ s x y, ∃ t, exec (.seReg x y) s = .next t ∧ Frame s t [] [.pc] ∧
    (s.reg x = s.reg y → t.pc = s.pc + 2) ∧ (s.reg x ≠ s.reg y → t.pc = s.pc)) ∧
  (∀ s x y, ∃ t, exec (.sneReg x y) s = .next t ∧ Frame s t [] [.pc] ∧
    (s.reg x ≠ s.reg y → t.pc = s.pc + 2) ∧ (s.reg x = s.reg y → t.pc = s.pc))

/-! ## Arithmetic and logic -/

/-- R140 to R145: loads, moves, the immediate addition and the bitwise operations write `V[x]` and nothing else; `VF` is
written only where it is `x`. -/
def Obligations.FlaglessAluResults : Prop :=
  DecodesTo (inFamily 0x6) (fun w => .ldImm (fieldX w) (fieldNN w)) ∧
  DecodesTo (inFamily 0x7) (fun w => .addImm (fieldX w) (fieldNN w)) ∧
  DecodesTo (inFamilyLow 0x8 0x0) (fun w => .mov (fieldX w) (fieldY w)) ∧
  DecodesTo (inFamilyLow 0x8 0x1) (fun w => .orReg (fieldX w) (fieldY w)) ∧
  DecodesTo (inFamilyLow 0x8 0x2) (fun w => .andReg (fieldX w) (fieldY w)) ∧
  DecodesTo (inFamilyLow 0x8 0x3) (fun w => .xorReg (fieldX w) (fieldY w)) ∧
  (∀ s x nn, ∃ t, exec (.ldImm x nn) s = .next t ∧ t.reg x = nn ∧ Frame s t [x] []) ∧
  (∀ s x nn, ∃ t, exec (.addImm x nn) s = .next t ∧ (t.reg x).toNat = ((s.reg x).toNat + nn.toNat) % 256 ∧
    Frame s t [x] []) ∧
  (∀ s x y, ∃ t, exec (.mov x y) s = .next t ∧ t.reg x = s.reg y ∧ Frame s t [x] []) ∧
  (∀ s x y, ∃ t, exec (.orReg x y) s = .next t ∧
    (∀ k, (t.reg x).getLsbD k = ((s.reg x).getLsbD k || (s.reg y).getLsbD k)) ∧ Frame s t [x] []) ∧
  (∀ s x y, ∃ t, exec (.andReg x y) s = .next t ∧
    (∀ k, (t.reg x).getLsbD k = ((s.reg x).getLsbD k && (s.reg y).getLsbD k)) ∧ Frame s t [x] []) ∧
  (∀ s x y, ∃ t, exec (.xorReg x y) s = .next t ∧
    (∀ k, (t.reg x).getLsbD k = ((s.reg x).getLsbD k ^^ (s.reg y).getLsbD k)) ∧ Frame s t [x] [])

/-- R146: `ADD Vx,Vy`, with its carry; where `VF` is `x` the carry is lost. -/
def Obligations.AddSetsCarry : Prop :=
  DecodesTo (inFamilyLow 0x8 0x4) (fun w => .addReg (fieldX w) (fieldY w)) ∧
  ∀ s x y, ∃ t, exec (.addReg x y) s = .next t ∧ Frame s t [x, 15] [] ∧
    (t.reg x).toNat = ((s.reg x).toNat + (s.reg y).toNat) % 256 ∧
    (x ≠ 15 → (t.reg 15).toNat = flag (255 < (s.reg x).toNat + (s.reg y).toNat))

/-- R147: `SUB Vx,Vy`, with its strict no-borrow flag, and the outcomes where `VF` is an operand. -/
def Obligations.SubSetsNoBorrow : Prop :=
  DecodesTo (inFamilyLow 0x8 0x5) (fun w => .subReg (fieldX w) (fieldY w)) ∧
  ∀ s x y, ∃ t, exec (.subReg x y) s = .next t ∧ Frame s t [x, 15] [] ∧
    let f := flag ((s.reg y).toNat < (s.reg x).toNat)
    (x ≠ 15 → (t.reg 15).toNat = f) ∧
    (x ≠ 15 → y ≠ 15 → (t.reg x).toNat = ((s.reg x).toNat + 256 - (s.reg y).toNat) % 256) ∧
    (x ≠ 15 → y = 15 → (t.reg x).toNat = ((s.reg x).toNat + 256 - f) % 256) ∧
    (x = 15 → y ≠ 15 → (t.reg 15).toNat = (f + 256 - (s.reg y).toNat) % 256) ∧
    (x = 15 → y = 15 → t.reg 15 = 0)

/-- R149: `SUBN Vx,Vy`, the reverse subtraction, and the outcomes where `VF` is an operand (by general knowledge and the
spec's decision D6: log entry 10). -/
def Obligations.SubnSetsNoBorrow : Prop :=
  DecodesTo (inFamilyLow 0x8 0x7) (fun w => .subn (fieldX w) (fieldY w)) ∧
  ∀ s x y, ∃ t, exec (.subn x y) s = .next t ∧ Frame s t [x, 15] [] ∧
    let f := flag ((s.reg x).toNat < (s.reg y).toNat)
    (x ≠ 15 → (t.reg 15).toNat = f) ∧
    (x ≠ 15 → y ≠ 15 → (t.reg x).toNat = ((s.reg y).toNat + 256 - (s.reg x).toNat) % 256) ∧
    (x ≠ 15 → y = 15 → (t.reg x).toNat = (f + 256 - (s.reg x).toNat) % 256) ∧
    (x = 15 → y ≠ 15 → (t.reg 15).toNat = ((s.reg y).toNat + 256 - f) % 256) ∧
    (x = 15 → y = 15 → t.reg 15 = 0)

/-- R148: `SHR Vx` works on `V[x]` in place and puts bit 0 of the old value into `VF`; `V[y]` is neither read nor
written; where `VF` is `x` the result wins and is 0. -/
def Obligations.ShrSetsTheLowBit : Prop :=
  DecodesTo (inFamilyLow 0x8 0x6) (fun w => .shr (fieldX w) (fieldY w)) ∧
  ∀ s x y, ∃ t, exec (.shr x y) s = .next t ∧ Frame s t [x, 15] [] ∧
    (x ≠ 15 → (t.reg x).toNat = (s.reg x).toNat / 2 ∧ (t.reg 15).toNat = (s.reg x).toNat % 2) ∧
    (x = 15 → t.reg 15 = 0)

/-- R150: `SHL Vx` puts bit 7 of the old value into `VF`, as 0 or 1, and shifts `V[x]` in place (the shift itself is
the spec's own inference, marked in R150 "derived: from rule R148"); where `VF` is `x` the result wins. -/
def Obligations.ShlSetsTheHighBit : Prop :=
  DecodesTo (inFamilyLow 0x8 0xE) (fun w => .shl (fieldX w) (fieldY w)) ∧
  ∀ s x y, ∃ t, exec (.shl x y) s = .next t ∧ Frame s t [x, 15] [] ∧
    (x ≠ 15 → (t.reg x).toNat = (s.reg x).toNat * 2 % 256 ∧ (t.reg 15).toNat = (s.reg x).toNat / 128) ∧
    (x = 15 → (t.reg 15).toNat = 2 * ((s.reg 15).toNat / 128))

/-- R151: `RND Vx,nn` takes one draw, whatever byte it is, and stores it masked by `nn` (the draw counter is the model's
form of the oracle, log entry 2). -/
def Obligations.RndStoresAMaskedDraw : Prop :=
  DecodesTo (inFamily 0xC) (fun w => .rnd (fieldX w) (fieldNN w)) ∧
  ∀ s x nn, ∃ t, exec (.rnd x nn) s = .next t ∧ Frame s t [x] [.draws] ∧ t.draws = s.draws + 1 ∧
    (∀ k, (t.reg x).getLsbD k = ((Config.randomByte s.draws).getLsbD k && nn.getLsbD k)) ∧
    (nn = 0 → t.reg x = 0) ∧ (nn = 0xFF → t.reg x = Config.randomByte s.draws)

/-! ## Index and memory -/

/-- R160, R162: `LD I,addr` and `LDF Vx`. -/
def Obligations.IndexLoads : Prop :=
  DecodesTo (inFamily 0xA) (fun w => .ldI (fieldNNN w)) ∧
  DecodesTo (inFamilyByte 0x29) (fun w => .ldF (fieldX w)) ∧
  (∀ s nnn, ∃ t, exec (.ldI nnn) s = .next t ∧ t.i.toNat = nnn.toNat ∧ Frame s t [] [.index]) ∧
  (∀ s x, ∃ t, exec (.ldF x) s = .next t ∧ t.i.toNat = 0x050 + 5 * ((s.reg x).toNat % 16) ∧ Frame s t [] [.index])

/-- R161: `ADD I,Vx` wraps `I` to 12 bits and writes `VF` by the parameter `ADDI_FLAG`, here for the default and for the
other instances the rule names. -/
def Obligations.AddIndexMasksAndFlags : Prop :=
  DecodesTo (inFamilyByte 0x1E) (fun w => .addI (fieldX w)) ∧
  ∀ s x, ∃ t, exec (.addI x) s = .next t ∧ Frame s t [15] [.index] ∧
    let sum := s.i.toNat + (s.reg x).toNat
    t.i.toNat = sum % 0x1000 ∧
    t.reg 15 = addIFlagValue s.config.addIFlag sum (s.reg 15) ∧
    (s.config.addIFlag = .past0x100 → (t.reg 15).toNat = flag (0x100 < sum)) ∧
    (s.config.addIFlag = .past0xFF → (t.reg 15).toNat = flag (0xFF < sum)) ∧
    (s.config.addIFlag = .past0xFFF → (t.reg 15).toNat = flag (0xFFF < sum)) ∧
    (s.config.addIFlag = .past0x100OrOld → t.reg 15 = if 0x100 < sum then 1 else s.reg 15) ∧
    (s.config.addIFlag = .noEffect → t.reg 15 = s.reg 15)

/-- R6: the configuration (its form is the model's choice, log entry 3) can name every function `ADDI_FLAG` may be, on
the whole of its domain. -/
def Obligations.EveryAddIndexFlagHasAConfiguration : Prop :=
  ∀ g : Nat → Byte → Byte, ∃ f : Config.AddIFlag,
    ∀ sum old, sum ≤ 0x10FE → addIFlagValue f sum old = g sum old

/-- R163: `BTD Vx` stores the three decimal digits at `I`, `I + 1` and `I + 2`; out of range it faults and stores
nothing. -/
def Obligations.BtdStoresDecimalDigits : Prop :=
  DecodesTo (inFamilyByte 0x33) (fun w => .btd (fieldX w)) ∧
  (∀ s x, effAddr s 2 ≤ 0xFFF → ∃ t, exec (.btd x) s = .next t ∧ Frame s t [] [.memory] ∧
    (t.readByte (effAddr s 0)).toNat = (s.reg x).toNat / 100 ∧
    (t.readByte (effAddr s 1)).toNat = (s.reg x).toNat / 10 % 10 ∧
    (t.readByte (effAddr s 2)).toNat = (s.reg x).toNat % 10 ∧
    ∀ a, (a < effAddr s 0 ∨ effAddr s 2 < a) → t.readByte a = s.readByte a) ∧
  (∀ s x, 0xFFF < effAddr s 2 → exec (.btd x) s = .fault (.addressOutOfRange (s.i.toNat + 2)))

/-- R164: `ST [I],Vx` stores `V[0]` to `V[x]` at ascending addresses from `I`, which it leaves; out of range it faults
and stores nothing. -/
def Obligations.StoreBlock : Prop :=
  DecodesTo (inFamilyByte 0x55) (fun w => .stMem (fieldX w)) ∧
  (∀ s x, effAddr s x.val ≤ 0xFFF → ∃ t, exec (.stMem x) s = .next t ∧ Frame s t [] [.memory] ∧
    (∀ r : Reg, r ≤ x → t.readByte (effAddr s r.val) = s.reg r) ∧
    ∀ a, (a < effAddr s 0 ∨ effAddr s x.val < a) → t.readByte a = s.readByte a) ∧
  (∀ s x, 0xFFF < effAddr s x.val → exec (.stMem x) s = .fault (.addressOutOfRange (s.i.toNat + x.val)))

/-- R165: `LD Vx,[I]` loads `V[0]` to `V[x]` from ascending addresses from `I`, which it leaves; out of range it faults
and loads nothing. -/
def Obligations.LoadBlock : Prop :=
  DecodesTo (inFamilyByte 0x65) (fun w => .ldMem (fieldX w)) ∧
  (∀ s x, effAddr s x.val ≤ 0xFFF → ∃ t, exec (.ldMem x) s = .next t ∧
    Frame s t ((List.finRange 16).filter (· ≤ x)) [] ∧
    ∀ r : Reg, r ≤ x → t.reg r = s.readByte (effAddr s r.val)) ∧
  (∀ s x, 0xFFF < effAddr s x.val → exec (.ldMem x) s = .fault (.addressOutOfRange (s.i.toNat + x.val)))

/-- R165 (the spec's own inference, marked "derived" there): `LD Vx,[I]` after `ST [I],Vx` with the same `I` and `x`
restores `V[0]` to `V[x]`, whatever the registers held in between. -/
def Obligations.LoadAfterStoreRestores : Prop :=
  ∀ s x, effAddr s x.val ≤ 0xFFF → ∃ t, exec (.stMem x) s = .next t ∧
    ∀ regs : Vector Byte 16, ∃ u, exec (.ldMem x) { t with v := regs } = .next u ∧ ∀ r : Reg, r ≤ x → u.reg r = s.reg r

/-- R63 (the spec's own inference): a store is seen by the very next fetch: a step that stores over the next instruction
changes what the step after it executes. -/
def Obligations.StoresAreSeenByTheNextFetch : Prop :=
  ∀ s x, s.CanFetch → next s = .stMem x → 1 ≤ x.val → s.i.toNat = s.pc.toNat + 2 → s.i.toNat + x.val ≤ 0xFFF →
    ∃ t, step s = .next t ∧ t.opcode.toNat = (s.reg 0).toNat * 256 + (s.reg 1).toNat

/-! ## Display -/

/-- R180: `CLS` turns every pixel off and writes nothing else. -/
def Obligations.ClsClearsTheScreen : Prop :=
  DecodesTo (inFamilyLow 0x0 0x0) (fun _ => .cls) ∧
  ∀ s, ∃ t, exec .cls s = .next t ∧ (∀ px py, t.pixel px py = false) ∧ Frame s t [] [.screen]

/-- R181, R182: `DRW` XORs the sprite, pixel by pixel, into the part of the screen it falls on; `VF` is 1 exactly when
an on-pixel was erased and 0 otherwise; a row to draw above 0xFFF faults. -/
def Obligations.DrwXorsTheSprite : Prop :=
  DecodesTo (inFamily 0xD) (fun w => .drw (fieldX w) (fieldY w) (fieldN w)) ∧
  (∀ s x y n, drawInRange s y n → ∃ t, exec (.drw x y n) s = .next t ∧ Frame s t [15] [.screen] ∧
    (∀ px py, spriteAt s x y n px py → t.pixel px py = !s.pixel px py) ∧
    (∀ px py, ¬ spriteAt s x y n px py → t.pixel px py = s.pixel px py) ∧
    ((∃ px py, spriteAt s x y n px py ∧ s.pixel px py = true) → t.reg 15 = 1) ∧
    ((∀ px py, spriteAt s x y n px py → s.pixel px py = false) → t.reg 15 = 0)) ∧
  (∀ s x y n, ¬ drawInRange s y n →
    exec (.drw x y n) s = .fault (.addressOutOfRange (s.i.toNat + rowsDrawn s y n - 1)))

/-- R181, R183: the same sprite drawn twice at the same place leaves the screen as it was; the second draw collides
exactly when the sprite has a pixel where the screen was off before the first, so always when the screen was clear
and the sprite has a pixel on it. (R183's wider sentence about the second flag is not what R181 gives: log entry 8.) -/
def Obligations.DrawingTwiceRestoresTheScreen : Prop :=
  ∀ s x y n, drawInRange s y n → ∃ t, exec (.drw x y n) s = .next t ∧
    ∀ u, u.fb = t.fb → u.mem = t.mem → u.config = t.config → u.i = t.i → u.reg x = s.reg x → u.reg y = s.reg y →
      ∃ w, exec (.drw x y n) u = .next w ∧ (∀ px py, w.pixel px py = s.pixel px py) ∧
        ((∃ px py, spriteAt s x y n px py ∧ s.pixel px py = false) → w.reg 15 = 1) ∧
        ((∀ px py, spriteAt s x y n px py → s.pixel px py = true) → w.reg 15 = 0) ∧
        ((∀ px py, s.pixel px py = false) →
          t.reg 15 = 0 ∧ ((∃ px py, spriteAt s x y n px py) → w.reg 15 = 1))

/-! ## Keys and timers -/

/-- R190, R191: the key skips test the key the whole register names; above 15 they report a fault. -/
def Obligations.KeySkips : Prop :=
  DecodesTo (inFamilyLow 0xE 0xE) (fun w => .skp (fieldX w)) ∧
  DecodesTo (inFamilyLow 0xE 0x1) (fun w => .sknp (fieldX w)) ∧
  (∀ s x (k : Key), (s.reg x).toNat = k.val → ∃ t, exec (.skp x) s = .next t ∧ Frame s t [] [.pc] ∧
    (s.keyDown k = true → t.pc = s.pc + 2) ∧ (s.keyDown k = false → t.pc = s.pc)) ∧
  (∀ s x (k : Key), (s.reg x).toNat = k.val → ∃ t, exec (.sknp x) s = .next t ∧ Frame s t [] [.pc] ∧
    (s.keyDown k = false → t.pc = s.pc + 2) ∧ (s.keyDown k = true → t.pc = s.pc)) ∧
  (∀ s x, 15 < (s.reg x).toNat → exec (.skp x) s = .fault (.keyIndexOutOfRange (s.reg x)) ∧
    exec (.sknp x) s = .fault (.keyIndexOutOfRange (s.reg x)))

/-- R192: `KEY Vx` stores the least pressed key, or 1 under the other setting of the parameter; with no key pressed the
program counter goes back. -/
def Obligations.KeyWaitsForAKey : Prop :=
  DecodesTo (inFamilyByte 0x0A) (fun w => .key (fieldX w)) ∧
  (∀ s x (k : Key), s.keyDown k = true → (∀ j : Key, j < k → s.keyDown j = false) →
    ∃ t, exec (.key x) s = .next t ∧ Frame s t [x] [] ∧
      (s.config.keyStoreIndex = true → (t.reg x).toNat = k.val) ∧ (s.config.keyStoreIndex = false → t.reg x = 1)) ∧
  (∀ s x, (∀ j : Key, s.keyDown j = false) →
    ∃ t, exec (.key x) s = .next t ∧ Frame s t [] [.pc] ∧ t.pc = s.pc - 2)

/-- R107, R192: a `KEY` that finds no key repeats for as many steps as the host makes, and only the timers move. -/
def Obligations.KeyStallsUntilAKeyIsPressed : Prop :=
  ∀ s x, s.CanFetch → next s = .key x → (∀ j : Key, s.keyDown j = false) → ∀ k, ∃ t, RunsTo s k t ∧
    Frame s t [] [.delay, .sound] ∧ t.dt.toNat = s.dt.toNat - k ∧ t.st.toNat = s.st.toNat - k

/-- R193, R194, R195: the timer moves; at the end of the step a timer just written has ticked once. What `tone_active`
(R31) then shows is the spec's own inference, marked "derived" in R195. -/
def Obligations.TimerMoves : Prop :=
  DecodesTo (inFamilyByte 0x07) (fun w => .ldVxDT (fieldX w)) ∧
  DecodesTo (inFamilyByte 0x15) (fun w => .ldDTVx (fieldX w)) ∧
  DecodesTo (inFamilyByte 0x18) (fun w => .ldSTVx (fieldX w)) ∧
  (∀ s x, ∃ t, exec (.ldVxDT x) s = .next t ∧ t.reg x = s.dt ∧ Frame s t [x] []) ∧
  (∀ s x, ∃ t, exec (.ldDTVx x) s = .next t ∧ t.dt = s.reg x ∧ Frame s t [] [.delay]) ∧
  (∀ s x, ∃ t, exec (.ldSTVx x) s = .next t ∧ t.st = s.reg x ∧ Frame s t [] [.sound]) ∧
  (∀ s x, s.CanFetch → next s = .ldVxDT x → ∃ t, step s = .next t ∧ t.reg x = s.dt ∧ t.dt.toNat = s.dt.toNat - 1) ∧
  (∀ s x, s.CanFetch → next s = .ldDTVx x → ∃ t, step s = .next t ∧ t.dt.toNat = (s.reg x).toNat - 1) ∧
  (∀ s x, s.CanFetch → next s = .ldSTVx x → ∃ t, step s = .next t ∧ t.st.toNat = (s.reg x).toNat - 1 ∧
    (t.toneActive = true ↔ 1 < (s.reg x).toNat))

/-! ## The host's operations -/

/-- R45, R230: the values of the state `initialize` leaves, for every configuration. -/
def Obligations.ResetValues : Prop :=
  ∀ c d, let t := State.resetWith c d
    (∀ x, t.reg x = 0) ∧ t.pc = 0x200 ∧ t.i = 0 ∧ t.sp = 0 ∧ (∀ k : Fin 16, t.stack[k.val] = 0) ∧ t.dt = 0 ∧ t.st = 0 ∧
    t.toneActive = false ∧ (∀ px py, t.pixel px py = false) ∧ (∀ k, t.keyDown k = false) ∧
    (∀ k : Fin 80, t.readByte (0x050 + k.val) = c.fontData[k.val]) ∧
    (∀ a, (a < 0x050 ∨ 0x09F < a) → t.readByte a = 0) ∧ t.config = c

/-- R230, R232: `initialize` cannot fail, from any state and on a core never initialised, and leaves that state with the
parameters unchanged; the machine's reset state is it with the recommended parameters. That a repeated `initialize`
keeps the draw counter, and the parameters of the reset state, are the model's choice: log entries 1 and 2. -/
def Obligations.InitializeGivesTheResetState : Prop :=
  (∀ c, perform (.uninitialized c) .init = (.running (State.resetWith c 0), .ok)) ∧
  (∀ s, perform (.running s) .init = (.running (State.resetWith s.config s.draws), .ok)) ∧
  State.reset = State.resetWith Config.recommended 0

/-- R233, R234, R235: `load_program` copies the bytes to 0x200 and up and changes nothing else; too long an input faults
and changes nothing. -/
def Obligations.LoadProgramCopiesTheBytes : Prop :=
  (∀ s (bytes : List Byte), bytes.length ≤ 3584 → ∃ t, perform (.running s) (.load bytes) = (.running t, .ok) ∧
    Frame s t [] [.memory] ∧ (∀ k, ∀ h : k < bytes.length, t.readByte (0x200 + k) = bytes[k]) ∧
    ∀ a, (a < 0x200 ∨ 0x200 + bytes.length ≤ a) → t.readByte a = s.readByte a) ∧
  (∀ s (bytes : List Byte), 3584 < bytes.length →
    perform (.running s) (.load bytes) = (.running s, .fault (.programTooLarge bytes.length)))

/-- R236 (S1): after `initialize` and one load, the first step executes the first two bytes, big-endian, and memory
outside the window is zero but for the font. -/
def Obligations.BootRunsTheFirstWord : Prop :=
  ∀ (c : Config) (b0 b1 : Byte) (rest : List Byte), rest.length ≤ 3582 →
    ∃ s, afterOps c [.init, .load (b0 :: b1 :: rest)] = .running s ∧ s.CanFetch ∧ next s = decodeWord (b0 ++ b1) ∧
      ∀ a, (a < 0x200 ∨ 0x202 + rest.length ≤ a) → (a < 0x050 ∨ 0x09F < a) → s.readByte a = 0

/-- R237: before the first `initialize` no other operation has a meaning. -/
def Obligations.UninitializedCoreRefuses : Prop :=
  ∀ (c : Config) (op : HostOp), op ≠ .init → perform (.uninitialized c) op = (.uninitialized c, .refused .notInitialized)

/-- R37: a key write sets that key and nothing else; no step changes a key. -/
def Obligations.OnlyTheHostWritesKeys : Prop :=
  (∀ s k down, ∃ t, perform (.running s) (.writeKey k down) = (.running t, .ok) ∧ t.keyDown k = down ∧
    (∀ j, j ≠ k → t.keyDown j = s.keyDown j) ∧ { t with keys := s.keys } = s) ∧
  (∀ s t, step s = .next t → ∀ k, t.keyDown k = s.keyDown k)

/-- R31, R184: the framebuffer view and the tone bit are functions of the state, and reading them changes nothing. -/
def Obligations.HostReadsTheScreenAndTheTone : Prop :=
  (∀ s, perform (.running s) .readView = (.running s, .view s.view) ∧ s.view.length = 2048) ∧
  (∀ (s : State) (px py : Nat), px < 64 → py < 32 →
    s.view.getD (py * 64 + px) 0 = if s.pixel px py then Config.onColor else Config.offColor) ∧
  (∀ s, perform (.running s) .readTone = (.running s, .tone (decide (s.st.toNat ≠ 0))))

/-! ## The end of a run -/

/-- R251 (the spec's own suggestion and inference): from a jump to its own address every later state differs only in the
timers, which count down and stay at zero. -/
def Obligations.JumpToSelfOnlyTicks : Prop :=
  ∀ (s : State) (a : Addr), s.Finished a → a.toNat ≤ 0xFFE → ∀ k, ∃ t, RunsTo s k t ∧ t.Finished a ∧
    Frame s t [] [.delay, .sound] ∧ t.dt.toNat = s.dt.toNat - k ∧ t.st.toNat = s.st.toNat - k
end

