-- ==== Sys2Proof/Laws/Decode.lean ====
section
/-! SUPPORT. The fields of a word and the words the encoder writes, as numbers; the fields read back from those words;
a word from its two bytes. -/

namespace Sys2Proof

@[simp] theorem Reg.ofNibble_toNibble (x : Reg) : Reg.ofNibble x.toNibble = x := by
  revert x; decide

@[simp] theorem Reg.toNibble_toNat (x : Reg) : x.toNibble.toNat = x.val := by
  revert x; decide

theorem Reg.ofNibble_val (b : Nibble) : (Reg.ofNibble b).val = b.toNat := rfl

/-! Fields as numbers -/

theorem family_toNat (w : Word) : (family w).toNat = w.toNat / 4096 := by
  have := w.isLt
  simp only [family, BitVec.extractLsb'_toNat, Nat.shiftRight_eq_div_pow]; omega

theorem fieldX_val (w : Word) : (fieldX w).val = w.toNat / 256 % 16 := by
  simp only [fieldX, Reg.ofNibble_val, BitVec.extractLsb'_toNat, Nat.shiftRight_eq_div_pow]

theorem fieldY_val (w : Word) : (fieldY w).val = w.toNat / 16 % 16 := by
  simp only [fieldY, Reg.ofNibble_val, BitVec.extractLsb'_toNat, Nat.shiftRight_eq_div_pow]

theorem fieldN_toNat (w : Word) : (fieldN w).toNat = w.toNat % 16 := by
  simp only [fieldN, BitVec.extractLsb'_toNat, Nat.shiftRight_zero]

theorem fieldNN_toNat (w : Word) : (fieldNN w).toNat = w.toNat % 256 := by
  simp only [fieldNN, BitVec.extractLsb'_toNat, Nat.shiftRight_zero]

theorem fieldNNN_toNat (w : Word) : (fieldNNN w).toNat = w.toNat % 4096 := by
  simp only [fieldNNN, BitVec.extractLsb'_toNat, Nat.shiftRight_zero]

/-! Words as numbers -/

theorem append_toNat {m n : Nat} (a : BitVec m) (b : BitVec n) : (a ++ b).toNat = a.toNat * 2 ^ n + b.toNat := by
  rw [BitVec.toNat_append, ← Nat.shiftLeft_add_eq_or_of_lt b.isLt, Nat.shiftLeft_eq]

theorem wordA_toNat (f : Nibble) (nnn : Addr) : (wordA f nnn).toNat = f.toNat * 4096 + nnn.toNat :=
  append_toNat f nnn

theorem wordXI_toNat (f : Nibble) (x : Reg) (k : Byte) :
    (wordXI f x k).toNat = f.toNat * 4096 + (x.val * 256 + k.toNat) := by
  have h := append_toNat x.toNibble k
  rw [Reg.toNibble_toNat] at h
  exact (append_toNat f _).trans (congrArg (f.toNat * 4096 + ·) h)

theorem wordXYN_toNat (f : Nibble) (x y : Reg) (n : Nibble) :
    (wordXYN f x y n).toNat = f.toNat * 4096 + (x.val * 256 + (y.val * 16 + n.toNat)) := by
  have h := append_toNat y.toNibble n
  have h' := append_toNat x.toNibble (y.toNibble ++ n)
  rw [Reg.toNibble_toNat] at h h'
  exact (append_toNat f _).trans (congrArg (f.toNat * 4096 + ·) (h'.trans (congrArg (x.val * 256 + ·) h)))

/-- Big-endian composition on numbers (R53). -/
theorem wordOfBytes_toNat (b0 b1 : Byte) : (wordOfBytes b0 b1).toNat = b0.toNat * 256 + b1.toNat :=
  append_toNat b0 b1

/-! The fields read back from the encoder's words -/

@[simp] theorem family_wordA (f : Nibble) (nnn : Addr) : family (wordA f nnn) = f := by
  have := nnn.isLt
  apply BitVec.eq_of_toNat_eq; rw [family_toNat, wordA_toNat]; omega

@[simp] theorem fieldNNN_wordA (f : Nibble) (nnn : Addr) : fieldNNN (wordA f nnn) = nnn := by
  have := nnn.isLt
  apply BitVec.eq_of_toNat_eq; rw [fieldNNN_toNat, wordA_toNat]; omega

@[simp] theorem fieldN_wordA (f : Nibble) (nnn : Addr) : fieldN (wordA f nnn) = nnn.extractLsb' 0 4 := by
  apply BitVec.eq_of_toNat_eq
  rw [fieldN_toNat, wordA_toNat, BitVec.extractLsb'_toNat, Nat.shiftRight_zero]; omega

@[simp] theorem family_wordXI (f : Nibble) (x : Reg) (k : Byte) : family (wordXI f x k) = f := by
  have := k.isLt
  apply BitVec.eq_of_toNat_eq; rw [family_toNat, wordXI_toNat]; omega

@[simp] theorem fieldX_wordXI (f : Nibble) (x : Reg) (k : Byte) : fieldX (wordXI f x k) = x := by
  have := k.isLt
  apply Fin.ext; rw [fieldX_val, wordXI_toNat]; omega

@[simp] theorem fieldNN_wordXI (f : Nibble) (x : Reg) (k : Byte) : fieldNN (wordXI f x k) = k := by
  have := k.isLt
  apply BitVec.eq_of_toNat_eq; rw [fieldNN_toNat, wordXI_toNat]; omega

@[simp] theorem fieldN_wordXI (f : Nibble) (x : Reg) (k : Byte) : fieldN (wordXI f x k) = k.extractLsb' 0 4 := by
  apply BitVec.eq_of_toNat_eq
  rw [fieldN_toNat, wordXI_toNat, BitVec.extractLsb'_toNat, Nat.shiftRight_zero]; omega

@[simp] theorem family_wordXYN (f : Nibble) (x y : Reg) (n : Nibble) : family (wordXYN f x y n) = f := by
  have := n.isLt
  apply BitVec.eq_of_toNat_eq; rw [family_toNat, wordXYN_toNat]; omega

@[simp] theorem fieldX_wordXYN (f : Nibble) (x y : Reg) (n : Nibble) : fieldX (wordXYN f x y n) = x := by
  have := n.isLt
  apply Fin.ext; rw [fieldX_val, wordXYN_toNat]; omega

@[simp] theorem fieldY_wordXYN (f : Nibble) (x y : Reg) (n : Nibble) : fieldY (wordXYN f x y n) = y := by
  have := n.isLt
  apply Fin.ext; rw [fieldY_val, wordXYN_toNat]; omega

@[simp] theorem fieldN_wordXYN (f : Nibble) (x y : Reg) (n : Nibble) : fieldN (wordXYN f x y n) = n := by
  have := n.isLt
  apply BitVec.eq_of_toNat_eq; rw [fieldN_toNat, wordXYN_toNat]; omega

/-- A word is its two bytes, the high one first. -/
@[simp] theorem wordOfBytes_highByte_lowByte (w : Word) : wordOfBytes (highByte w) (lowByte w) = w := by
  have := w.isLt
  apply BitVec.eq_of_toNat_eq
  rw [wordOfBytes_toNat]
  simp only [highByte, lowByte, BitVec.extractLsb'_toNat, Nat.shiftRight_eq_div_pow]; omega

end Sys2Proof
end

