-- ==== Sys2Proof/Laws/State.lean ====
section
/-! SUPPORT. One lemma for each field and each update of the state, so that no later proof unfolds a record update; and
the same for the reads of a register, a key, a pixel and a byte. -/

namespace Sys2Proof.Machine

variable (s : State)

/-! `State.setReg` -/

@[simp] theorem State.setReg_pc (x : Reg) (b : Byte) : (s.setReg x b).pc = s.pc := rfl
@[simp] theorem State.setReg_i (x : Reg) (b : Byte) : (s.setReg x b).i = s.i := rfl
@[simp] theorem State.setReg_sp (x : Reg) (b : Byte) : (s.setReg x b).sp = s.sp := rfl
@[simp] theorem State.setReg_stack (x : Reg) (b : Byte) : (s.setReg x b).stack = s.stack := rfl
@[simp] theorem State.setReg_dt (x : Reg) (b : Byte) : (s.setReg x b).dt = s.dt := rfl
@[simp] theorem State.setReg_st (x : Reg) (b : Byte) : (s.setReg x b).st = s.st := rfl
@[simp] theorem State.setReg_fb (x : Reg) (b : Byte) : (s.setReg x b).fb = s.fb := rfl
@[simp] theorem State.setReg_keys (x : Reg) (b : Byte) : (s.setReg x b).keys = s.keys := rfl
@[simp] theorem State.setReg_mem (x : Reg) (b : Byte) : (s.setReg x b).mem = s.mem := rfl
@[simp] theorem State.setReg_draws (x : Reg) (b : Byte) : (s.setReg x b).draws = s.draws := rfl
@[simp] theorem State.setReg_config (x : Reg) (b : Byte) : (s.setReg x b).config = s.config := rfl
@[simp] theorem State.setReg_keyDown (x : Reg) (b : Byte) (j : Key) : (s.setReg x b).keyDown j = s.keyDown j := rfl
@[simp] theorem State.setReg_pixel (x : Reg) (b : Byte) (px py : Nat) : (s.setReg x b).pixel px py = s.pixel px py :=
  rfl
@[simp] theorem State.setReg_readByte (x : Reg) (b : Byte) (n : Nat) : (s.setReg x b).readByte n = s.readByte n := rfl

/-! `State.setPc` -/

@[simp] theorem State.setPc_v (a : Word) : (s.setPc a).v = s.v := rfl
@[simp] theorem State.setPc_pc (a : Word) : (s.setPc a).pc = a := rfl
@[simp] theorem State.setPc_i (a : Word) : (s.setPc a).i = s.i := rfl
@[simp] theorem State.setPc_sp (a : Word) : (s.setPc a).sp = s.sp := rfl
@[simp] theorem State.setPc_stack (a : Word) : (s.setPc a).stack = s.stack := rfl
@[simp] theorem State.setPc_dt (a : Word) : (s.setPc a).dt = s.dt := rfl
@[simp] theorem State.setPc_st (a : Word) : (s.setPc a).st = s.st := rfl
@[simp] theorem State.setPc_fb (a : Word) : (s.setPc a).fb = s.fb := rfl
@[simp] theorem State.setPc_keys (a : Word) : (s.setPc a).keys = s.keys := rfl
@[simp] theorem State.setPc_mem (a : Word) : (s.setPc a).mem = s.mem := rfl
@[simp] theorem State.setPc_draws (a : Word) : (s.setPc a).draws = s.draws := rfl
@[simp] theorem State.setPc_config (a : Word) : (s.setPc a).config = s.config := rfl
@[simp] theorem State.setPc_reg (a : Word) (r : Reg) : (s.setPc a).reg r = s.reg r := rfl
@[simp] theorem State.setPc_keyDown (a : Word) (j : Key) : (s.setPc a).keyDown j = s.keyDown j := rfl
@[simp] theorem State.setPc_pixel (a : Word) (px py : Nat) : (s.setPc a).pixel px py = s.pixel px py := rfl
@[simp] theorem State.setPc_readByte (a : Word) (n : Nat) : (s.setPc a).readByte n = s.readByte n := rfl

/-! `State.setI` -/

@[simp] theorem State.setI_v (a : Word) : (s.setI a).v = s.v := rfl
@[simp] theorem State.setI_pc (a : Word) : (s.setI a).pc = s.pc := rfl
@[simp] theorem State.setI_i (a : Word) : (s.setI a).i = a := rfl
@[simp] theorem State.setI_sp (a : Word) : (s.setI a).sp = s.sp := rfl
@[simp] theorem State.setI_stack (a : Word) : (s.setI a).stack = s.stack := rfl
@[simp] theorem State.setI_dt (a : Word) : (s.setI a).dt = s.dt := rfl
@[simp] theorem State.setI_st (a : Word) : (s.setI a).st = s.st := rfl
@[simp] theorem State.setI_fb (a : Word) : (s.setI a).fb = s.fb := rfl
@[simp] theorem State.setI_keys (a : Word) : (s.setI a).keys = s.keys := rfl
@[simp] theorem State.setI_mem (a : Word) : (s.setI a).mem = s.mem := rfl
@[simp] theorem State.setI_draws (a : Word) : (s.setI a).draws = s.draws := rfl
@[simp] theorem State.setI_config (a : Word) : (s.setI a).config = s.config := rfl
@[simp] theorem State.setI_reg (a : Word) (r : Reg) : (s.setI a).reg r = s.reg r := rfl
@[simp] theorem State.setI_keyDown (a : Word) (j : Key) : (s.setI a).keyDown j = s.keyDown j := rfl
@[simp] theorem State.setI_pixel (a : Word) (px py : Nat) : (s.setI a).pixel px py = s.pixel px py := rfl
@[simp] theorem State.setI_readByte (a : Word) (n : Nat) : (s.setI a).readByte n = s.readByte n := rfl

/-! `State.setDt` -/

@[simp] theorem State.setDt_v (b : Byte) : (s.setDt b).v = s.v := rfl
@[simp] theorem State.setDt_pc (b : Byte) : (s.setDt b).pc = s.pc := rfl
@[simp] theorem State.setDt_i (b : Byte) : (s.setDt b).i = s.i := rfl
@[simp] theorem State.setDt_sp (b : Byte) : (s.setDt b).sp = s.sp := rfl
@[simp] theorem State.setDt_stack (b : Byte) : (s.setDt b).stack = s.stack := rfl
@[simp] theorem State.setDt_dt (b : Byte) : (s.setDt b).dt = b := rfl
@[simp] theorem State.setDt_st (b : Byte) : (s.setDt b).st = s.st := rfl
@[simp] theorem State.setDt_fb (b : Byte) : (s.setDt b).fb = s.fb := rfl
@[simp] theorem State.setDt_keys (b : Byte) : (s.setDt b).keys = s.keys := rfl
@[simp] theorem State.setDt_mem (b : Byte) : (s.setDt b).mem = s.mem := rfl
@[simp] theorem State.setDt_draws (b : Byte) : (s.setDt b).draws = s.draws := rfl
@[simp] theorem State.setDt_config (b : Byte) : (s.setDt b).config = s.config := rfl
@[simp] theorem State.setDt_reg (b : Byte) (r : Reg) : (s.setDt b).reg r = s.reg r := rfl
@[simp] theorem State.setDt_keyDown (b : Byte) (j : Key) : (s.setDt b).keyDown j = s.keyDown j := rfl
@[simp] theorem State.setDt_pixel (b : Byte) (px py : Nat) : (s.setDt b).pixel px py = s.pixel px py := rfl
@[simp] theorem State.setDt_readByte (b : Byte) (n : Nat) : (s.setDt b).readByte n = s.readByte n := rfl

/-! `State.setSt` -/

@[simp] theorem State.setSt_v (b : Byte) : (s.setSt b).v = s.v := rfl
@[simp] theorem State.setSt_pc (b : Byte) : (s.setSt b).pc = s.pc := rfl
@[simp] theorem State.setSt_i (b : Byte) : (s.setSt b).i = s.i := rfl
@[simp] theorem State.setSt_sp (b : Byte) : (s.setSt b).sp = s.sp := rfl
@[simp] theorem State.setSt_stack (b : Byte) : (s.setSt b).stack = s.stack := rfl
@[simp] theorem State.setSt_dt (b : Byte) : (s.setSt b).dt = s.dt := rfl
@[simp] theorem State.setSt_st (b : Byte) : (s.setSt b).st = b := rfl
@[simp] theorem State.setSt_fb (b : Byte) : (s.setSt b).fb = s.fb := rfl
@[simp] theorem State.setSt_keys (b : Byte) : (s.setSt b).keys = s.keys := rfl
@[simp] theorem State.setSt_mem (b : Byte) : (s.setSt b).mem = s.mem := rfl
@[simp] theorem State.setSt_draws (b : Byte) : (s.setSt b).draws = s.draws := rfl
@[simp] theorem State.setSt_config (b : Byte) : (s.setSt b).config = s.config := rfl
@[simp] theorem State.setSt_reg (b : Byte) (r : Reg) : (s.setSt b).reg r = s.reg r := rfl
@[simp] theorem State.setSt_keyDown (b : Byte) (j : Key) : (s.setSt b).keyDown j = s.keyDown j := rfl
@[simp] theorem State.setSt_pixel (b : Byte) (px py : Nat) : (s.setSt b).pixel px py = s.pixel px py := rfl
@[simp] theorem State.setSt_readByte (b : Byte) (n : Nat) : (s.setSt b).readByte n = s.readByte n := rfl

/-! `State.writeByte` -/

@[simp] theorem State.writeByte_v (a : Nat) (x : Byte) : (s.writeByte a x).v = s.v := rfl
@[simp] theorem State.writeByte_pc (a : Nat) (x : Byte) : (s.writeByte a x).pc = s.pc := rfl
@[simp] theorem State.writeByte_i (a : Nat) (x : Byte) : (s.writeByte a x).i = s.i := rfl
@[simp] theorem State.writeByte_sp (a : Nat) (x : Byte) : (s.writeByte a x).sp = s.sp := rfl
@[simp] theorem State.writeByte_stack (a : Nat) (x : Byte) : (s.writeByte a x).stack = s.stack := rfl
@[simp] theorem State.writeByte_dt (a : Nat) (x : Byte) : (s.writeByte a x).dt = s.dt := rfl
@[simp] theorem State.writeByte_st (a : Nat) (x : Byte) : (s.writeByte a x).st = s.st := rfl
@[simp] theorem State.writeByte_fb (a : Nat) (x : Byte) : (s.writeByte a x).fb = s.fb := rfl
@[simp] theorem State.writeByte_keys (a : Nat) (x : Byte) : (s.writeByte a x).keys = s.keys := rfl
@[simp] theorem State.writeByte_draws (a : Nat) (x : Byte) : (s.writeByte a x).draws = s.draws := rfl
@[simp] theorem State.writeByte_config (a : Nat) (x : Byte) : (s.writeByte a x).config = s.config := rfl
@[simp] theorem State.writeByte_reg (a : Nat) (x : Byte) (r : Reg) : (s.writeByte a x).reg r = s.reg r := rfl
@[simp] theorem State.writeByte_keyDown (a : Nat) (x : Byte) (j : Key) : (s.writeByte a x).keyDown j = s.keyDown j :=
  rfl
@[simp] theorem State.writeByte_pixel (a : Nat) (x : Byte) (px py : Nat) : (s.writeByte a x).pixel px py = s.pixel px py :=
  rfl

/-! `State.push` -/

@[simp] theorem State.push_v (ret : Word) (h : s.sp.val < 16) : (s.push ret h).v = s.v := rfl
@[simp] theorem State.push_pc (ret : Word) (h : s.sp.val < 16) : (s.push ret h).pc = s.pc := rfl
@[simp] theorem State.push_i (ret : Word) (h : s.sp.val < 16) : (s.push ret h).i = s.i := rfl
@[simp] theorem State.push_dt (ret : Word) (h : s.sp.val < 16) : (s.push ret h).dt = s.dt := rfl
@[simp] theorem State.push_st (ret : Word) (h : s.sp.val < 16) : (s.push ret h).st = s.st := rfl
@[simp] theorem State.push_fb (ret : Word) (h : s.sp.val < 16) : (s.push ret h).fb = s.fb := rfl
@[simp] theorem State.push_keys (ret : Word) (h : s.sp.val < 16) : (s.push ret h).keys = s.keys := rfl
@[simp] theorem State.push_mem (ret : Word) (h : s.sp.val < 16) : (s.push ret h).mem = s.mem := rfl
@[simp] theorem State.push_draws (ret : Word) (h : s.sp.val < 16) : (s.push ret h).draws = s.draws := rfl
@[simp] theorem State.push_config (ret : Word) (h : s.sp.val < 16) : (s.push ret h).config = s.config := rfl
@[simp] theorem State.push_reg (ret : Word) (h : s.sp.val < 16) (r : Reg) : (s.push ret h).reg r = s.reg r := rfl
@[simp] theorem State.push_keyDown (ret : Word) (h : s.sp.val < 16) (j : Key) : (s.push ret h).keyDown j = s.keyDown j :=
  rfl
@[simp] theorem State.push_pixel (ret : Word) (h : s.sp.val < 16) (px py : Nat) : (s.push ret h).pixel px py = s.pixel px py :=
  rfl
@[simp] theorem State.push_readByte (ret : Word) (h : s.sp.val < 16) (n : Nat) : (s.push ret h).readByte n = s.readByte n :=
  rfl

/-! `State.pop` -/

@[simp] theorem State.pop_v (h : 0 < s.sp.val) : (s.pop h).v = s.v := rfl
@[simp] theorem State.pop_pc (h : 0 < s.sp.val) : (s.pop h).pc = s.pc := rfl
@[simp] theorem State.pop_i (h : 0 < s.sp.val) : (s.pop h).i = s.i := rfl
@[simp] theorem State.pop_stack (h : 0 < s.sp.val) : (s.pop h).stack = s.stack := rfl
@[simp] theorem State.pop_dt (h : 0 < s.sp.val) : (s.pop h).dt = s.dt := rfl
@[simp] theorem State.pop_st (h : 0 < s.sp.val) : (s.pop h).st = s.st := rfl
@[simp] theorem State.pop_fb (h : 0 < s.sp.val) : (s.pop h).fb = s.fb := rfl
@[simp] theorem State.pop_keys (h : 0 < s.sp.val) : (s.pop h).keys = s.keys := rfl
@[simp] theorem State.pop_mem (h : 0 < s.sp.val) : (s.pop h).mem = s.mem := rfl
@[simp] theorem State.pop_draws (h : 0 < s.sp.val) : (s.pop h).draws = s.draws := rfl
@[simp] theorem State.pop_config (h : 0 < s.sp.val) : (s.pop h).config = s.config := rfl
@[simp] theorem State.pop_reg (h : 0 < s.sp.val) (r : Reg) : (s.pop h).reg r = s.reg r := rfl
@[simp] theorem State.pop_keyDown (h : 0 < s.sp.val) (j : Key) : (s.pop h).keyDown j = s.keyDown j := rfl
@[simp] theorem State.pop_pixel (h : 0 < s.sp.val) (px py : Nat) : (s.pop h).pixel px py = s.pixel px py := rfl
@[simp] theorem State.pop_readByte (h : 0 < s.sp.val) (n : Nat) : (s.pop h).readByte n = s.readByte n := rfl

/-! `State.clearFb` -/

@[simp] theorem State.clearFb_v : s.clearFb.v = s.v := rfl
@[simp] theorem State.clearFb_pc : s.clearFb.pc = s.pc := rfl
@[simp] theorem State.clearFb_i : s.clearFb.i = s.i := rfl
@[simp] theorem State.clearFb_sp : s.clearFb.sp = s.sp := rfl
@[simp] theorem State.clearFb_stack : s.clearFb.stack = s.stack := rfl
@[simp] theorem State.clearFb_dt : s.clearFb.dt = s.dt := rfl
@[simp] theorem State.clearFb_st : s.clearFb.st = s.st := rfl
@[simp] theorem State.clearFb_fb : s.clearFb.fb = Vector.replicate 32 0 := rfl
@[simp] theorem State.clearFb_keys : s.clearFb.keys = s.keys := rfl
@[simp] theorem State.clearFb_mem : s.clearFb.mem = s.mem := rfl
@[simp] theorem State.clearFb_draws : s.clearFb.draws = s.draws := rfl
@[simp] theorem State.clearFb_config : s.clearFb.config = s.config := rfl
@[simp] theorem State.clearFb_reg (r : Reg) : s.clearFb.reg r = s.reg r := rfl
@[simp] theorem State.clearFb_keyDown (j : Key) : s.clearFb.keyDown j = s.keyDown j := rfl
@[simp] theorem State.clearFb_readByte (n : Nat) : s.clearFb.readByte n = s.readByte n := rfl

/-! `State.blit` -/

@[simp] theorem State.blit_v (x0 y0 rows : Nat) : (s.blit x0 y0 rows).v = s.v := by rw [State.blit]
@[simp] theorem State.blit_pc (x0 y0 rows : Nat) : (s.blit x0 y0 rows).pc = s.pc := by rw [State.blit]
@[simp] theorem State.blit_i (x0 y0 rows : Nat) : (s.blit x0 y0 rows).i = s.i := by rw [State.blit]
@[simp] theorem State.blit_sp (x0 y0 rows : Nat) : (s.blit x0 y0 rows).sp = s.sp := by rw [State.blit]
@[simp] theorem State.blit_stack (x0 y0 rows : Nat) : (s.blit x0 y0 rows).stack = s.stack := by rw [State.blit]
@[simp] theorem State.blit_dt (x0 y0 rows : Nat) : (s.blit x0 y0 rows).dt = s.dt := by rw [State.blit]
@[simp] theorem State.blit_st (x0 y0 rows : Nat) : (s.blit x0 y0 rows).st = s.st := by rw [State.blit]
@[simp] theorem State.blit_keys (x0 y0 rows : Nat) : (s.blit x0 y0 rows).keys = s.keys := by rw [State.blit]
@[simp] theorem State.blit_mem (x0 y0 rows : Nat) : (s.blit x0 y0 rows).mem = s.mem := by rw [State.blit]
@[simp] theorem State.blit_draws (x0 y0 rows : Nat) : (s.blit x0 y0 rows).draws = s.draws := by rw [State.blit]
@[simp] theorem State.blit_config (x0 y0 rows : Nat) : (s.blit x0 y0 rows).config = s.config := by rw [State.blit]
@[simp] theorem State.blit_reg (x0 y0 rows : Nat) (r : Reg) : (s.blit x0 y0 rows).reg r = s.reg r := by simp [State.reg]
@[simp] theorem State.blit_keyDown (x0 y0 rows : Nat) (j : Key) : (s.blit x0 y0 rows).keyDown j = s.keyDown j :=
  by simp [State.keyDown]
@[simp] theorem State.blit_readByte (x0 y0 rows n : Nat) : (s.blit x0 y0 rows).readByte n = s.readByte n :=
  by simp [State.readByte]

/-! `State.setKey` -/

@[simp] theorem State.setKey_v (k : Key) (down : Bool) : (s.setKey k down).v = s.v := rfl
@[simp] theorem State.setKey_pc (k : Key) (down : Bool) : (s.setKey k down).pc = s.pc := rfl
@[simp] theorem State.setKey_i (k : Key) (down : Bool) : (s.setKey k down).i = s.i := rfl
@[simp] theorem State.setKey_sp (k : Key) (down : Bool) : (s.setKey k down).sp = s.sp := rfl
@[simp] theorem State.setKey_stack (k : Key) (down : Bool) : (s.setKey k down).stack = s.stack := rfl
@[simp] theorem State.setKey_dt (k : Key) (down : Bool) : (s.setKey k down).dt = s.dt := rfl
@[simp] theorem State.setKey_st (k : Key) (down : Bool) : (s.setKey k down).st = s.st := rfl
@[simp] theorem State.setKey_fb (k : Key) (down : Bool) : (s.setKey k down).fb = s.fb := rfl
@[simp] theorem State.setKey_mem (k : Key) (down : Bool) : (s.setKey k down).mem = s.mem := rfl
@[simp] theorem State.setKey_draws (k : Key) (down : Bool) : (s.setKey k down).draws = s.draws := rfl
@[simp] theorem State.setKey_config (k : Key) (down : Bool) : (s.setKey k down).config = s.config := rfl
@[simp] theorem State.setKey_reg (k : Key) (down : Bool) (r : Reg) : (s.setKey k down).reg r = s.reg r := rfl
@[simp] theorem State.setKey_pixel (k : Key) (down : Bool) (px py : Nat) : (s.setKey k down).pixel px py = s.pixel px py :=
  rfl
@[simp] theorem State.setKey_readByte (k : Key) (down : Bool) (n : Nat) : (s.setKey k down).readByte n = s.readByte n :=
  rfl

/-! `State.tickTimers` -/

@[simp] theorem State.tickTimers_v : s.tickTimers.v = s.v := rfl
@[simp] theorem State.tickTimers_pc : s.tickTimers.pc = s.pc := rfl
@[simp] theorem State.tickTimers_i : s.tickTimers.i = s.i := rfl
@[simp] theorem State.tickTimers_sp : s.tickTimers.sp = s.sp := rfl
@[simp] theorem State.tickTimers_stack : s.tickTimers.stack = s.stack := rfl
@[simp] theorem State.tickTimers_dt : s.tickTimers.dt = decrement s.dt := rfl
@[simp] theorem State.tickTimers_st : s.tickTimers.st = decrement s.st := rfl
@[simp] theorem State.tickTimers_fb : s.tickTimers.fb = s.fb := rfl
@[simp] theorem State.tickTimers_keys : s.tickTimers.keys = s.keys := rfl
@[simp] theorem State.tickTimers_mem : s.tickTimers.mem = s.mem := rfl
@[simp] theorem State.tickTimers_draws : s.tickTimers.draws = s.draws := rfl
@[simp] theorem State.tickTimers_config : s.tickTimers.config = s.config := rfl
@[simp] theorem State.tickTimers_reg (r : Reg) : s.tickTimers.reg r = s.reg r := rfl
@[simp] theorem State.tickTimers_keyDown (j : Key) : s.tickTimers.keyDown j = s.keyDown j := rfl
@[simp] theorem State.tickTimers_pixel (px py : Nat) : s.tickTimers.pixel px py = s.pixel px py := rfl
@[simp] theorem State.tickTimers_readByte (n : Nat) : s.tickTimers.readByte n = s.readByte n := rfl

/-! `State.takeDraw` -/

@[simp] theorem State.takeDraw_v : s.takeDraw.v = s.v := rfl
@[simp] theorem State.takeDraw_pc : s.takeDraw.pc = s.pc := rfl
@[simp] theorem State.takeDraw_i : s.takeDraw.i = s.i := rfl
@[simp] theorem State.takeDraw_sp : s.takeDraw.sp = s.sp := rfl
@[simp] theorem State.takeDraw_stack : s.takeDraw.stack = s.stack := rfl
@[simp] theorem State.takeDraw_dt : s.takeDraw.dt = s.dt := rfl
@[simp] theorem State.takeDraw_st : s.takeDraw.st = s.st := rfl
@[simp] theorem State.takeDraw_fb : s.takeDraw.fb = s.fb := rfl
@[simp] theorem State.takeDraw_keys : s.takeDraw.keys = s.keys := rfl
@[simp] theorem State.takeDraw_mem : s.takeDraw.mem = s.mem := rfl
@[simp] theorem State.takeDraw_draws : s.takeDraw.draws = s.draws + 1 := rfl
@[simp] theorem State.takeDraw_config : s.takeDraw.config = s.config := rfl
@[simp] theorem State.takeDraw_reg (r : Reg) : s.takeDraw.reg r = s.reg r := rfl
@[simp] theorem State.takeDraw_keyDown (j : Key) : s.takeDraw.keyDown j = s.keyDown j := rfl
@[simp] theorem State.takeDraw_pixel (px py : Nat) : s.takeDraw.pixel px py = s.pixel px py := rfl
@[simp] theorem State.takeDraw_readByte (n : Nat) : s.takeDraw.readByte n = s.readByte n := rfl

/-! `State.advance` -/

@[simp] theorem State.advance_v : s.advance.v = s.v := rfl
@[simp] theorem State.advance_pc : s.advance.pc = s.pc + 2 := rfl
@[simp] theorem State.advance_i : s.advance.i = s.i := rfl
@[simp] theorem State.advance_sp : s.advance.sp = s.sp := rfl
@[simp] theorem State.advance_stack : s.advance.stack = s.stack := rfl
@[simp] theorem State.advance_dt : s.advance.dt = s.dt := rfl
@[simp] theorem State.advance_st : s.advance.st = s.st := rfl
@[simp] theorem State.advance_fb : s.advance.fb = s.fb := rfl
@[simp] theorem State.advance_keys : s.advance.keys = s.keys := rfl
@[simp] theorem State.advance_mem : s.advance.mem = s.mem := rfl
@[simp] theorem State.advance_draws : s.advance.draws = s.draws := rfl
@[simp] theorem State.advance_config : s.advance.config = s.config := rfl
@[simp] theorem State.advance_reg (r : Reg) : s.advance.reg r = s.reg r := rfl
@[simp] theorem State.advance_keyDown (j : Key) : s.advance.keyDown j = s.keyDown j := rfl
@[simp] theorem State.advance_pixel (px py : Nat) : s.advance.pixel px py = s.pixel px py := rfl
@[simp] theorem State.advance_readByte (n : Nat) : s.advance.readByte n = s.readByte n := rfl

/-! `State.loadRegs` -/

@[simp] theorem State.loadRegs_pc (x : Reg) (a : Nat) : (s.loadRegs x a).pc = s.pc := rfl
@[simp] theorem State.loadRegs_i (x : Reg) (a : Nat) : (s.loadRegs x a).i = s.i := rfl
@[simp] theorem State.loadRegs_sp (x : Reg) (a : Nat) : (s.loadRegs x a).sp = s.sp := rfl
@[simp] theorem State.loadRegs_stack (x : Reg) (a : Nat) : (s.loadRegs x a).stack = s.stack := rfl
@[simp] theorem State.loadRegs_dt (x : Reg) (a : Nat) : (s.loadRegs x a).dt = s.dt := rfl
@[simp] theorem State.loadRegs_st (x : Reg) (a : Nat) : (s.loadRegs x a).st = s.st := rfl
@[simp] theorem State.loadRegs_fb (x : Reg) (a : Nat) : (s.loadRegs x a).fb = s.fb := rfl
@[simp] theorem State.loadRegs_keys (x : Reg) (a : Nat) : (s.loadRegs x a).keys = s.keys := rfl
@[simp] theorem State.loadRegs_mem (x : Reg) (a : Nat) : (s.loadRegs x a).mem = s.mem := rfl
@[simp] theorem State.loadRegs_draws (x : Reg) (a : Nat) : (s.loadRegs x a).draws = s.draws := rfl
@[simp] theorem State.loadRegs_config (x : Reg) (a : Nat) : (s.loadRegs x a).config = s.config := rfl
@[simp] theorem State.loadRegs_keyDown (x : Reg) (a : Nat) (j : Key) : (s.loadRegs x a).keyDown j = s.keyDown j := rfl
@[simp] theorem State.loadRegs_pixel (x : Reg) (a : Nat) (px py : Nat) : (s.loadRegs x a).pixel px py = s.pixel px py :=
  rfl
@[simp] theorem State.loadRegs_readByte (x : Reg) (a : Nat) (n : Nat) : (s.loadRegs x a).readByte n = s.readByte n :=
  rfl

/-! `State.skipIf`: only the program counter can change. -/

@[simp] theorem State.skipIf_v (c : Bool) : (s.skipIf c).v = s.v := by cases c <;> rfl
@[simp] theorem State.skipIf_i (c : Bool) : (s.skipIf c).i = s.i := by cases c <;> rfl
@[simp] theorem State.skipIf_sp (c : Bool) : (s.skipIf c).sp = s.sp := by cases c <;> rfl
@[simp] theorem State.skipIf_stack (c : Bool) : (s.skipIf c).stack = s.stack := by cases c <;> rfl
@[simp] theorem State.skipIf_dt (c : Bool) : (s.skipIf c).dt = s.dt := by cases c <;> rfl
@[simp] theorem State.skipIf_st (c : Bool) : (s.skipIf c).st = s.st := by cases c <;> rfl
@[simp] theorem State.skipIf_fb (c : Bool) : (s.skipIf c).fb = s.fb := by cases c <;> rfl
@[simp] theorem State.skipIf_keys (c : Bool) : (s.skipIf c).keys = s.keys := by cases c <;> rfl
@[simp] theorem State.skipIf_mem (c : Bool) : (s.skipIf c).mem = s.mem := by cases c <;> rfl
@[simp] theorem State.skipIf_draws (c : Bool) : (s.skipIf c).draws = s.draws := by cases c <;> rfl
@[simp] theorem State.skipIf_config (c : Bool) : (s.skipIf c).config = s.config := by cases c <;> rfl
@[simp] theorem State.skipIf_pc (c : Bool) : (s.skipIf c).pc = if c then s.pc + 2 else s.pc := by cases c <;> rfl
@[simp] theorem State.skipIf_reg (c : Bool) (r : Reg) : (s.skipIf c).reg r = s.reg r := by cases c <;> rfl
@[simp] theorem State.skipIf_keyDown (c : Bool) (k : Key) : (s.skipIf c).keyDown k = s.keyDown k := by cases c <;> rfl
@[simp] theorem State.skipIf_pixel (c : Bool) (px py : Nat) : (s.skipIf c).pixel px py = s.pixel px py := by
  cases c <;> rfl
@[simp] theorem State.skipIf_readByte (c : Bool) (n : Nat) : (s.skipIf c).readByte n = s.readByte n := by
  cases c <;> rfl

/-! `State.writeBytes`: only memory can change. -/

@[simp] theorem State.writeBytes_v (bs : List Byte) (a : Nat) : (s.writeBytes a bs).v = s.v := by
  induction bs generalizing s a with
  | nil => rfl
  | cons x xs ih => simp [State.writeBytes, ih]
@[simp] theorem State.writeBytes_pc (bs : List Byte) (a : Nat) : (s.writeBytes a bs).pc = s.pc := by
  induction bs generalizing s a with
  | nil => rfl
  | cons x xs ih => simp [State.writeBytes, ih]
@[simp] theorem State.writeBytes_i (bs : List Byte) (a : Nat) : (s.writeBytes a bs).i = s.i := by
  induction bs generalizing s a with
  | nil => rfl
  | cons x xs ih => simp [State.writeBytes, ih]
@[simp] theorem State.writeBytes_sp (bs : List Byte) (a : Nat) : (s.writeBytes a bs).sp = s.sp := by
  induction bs generalizing s a with
  | nil => rfl
  | cons x xs ih => simp [State.writeBytes, ih]
@[simp] theorem State.writeBytes_stack (bs : List Byte) (a : Nat) : (s.writeBytes a bs).stack = s.stack := by
  induction bs generalizing s a with
  | nil => rfl
  | cons x xs ih => simp [State.writeBytes, ih]
@[simp] theorem State.writeBytes_dt (bs : List Byte) (a : Nat) : (s.writeBytes a bs).dt = s.dt := by
  induction bs generalizing s a with
  | nil => rfl
  | cons x xs ih => simp [State.writeBytes, ih]
@[simp] theorem State.writeBytes_st (bs : List Byte) (a : Nat) : (s.writeBytes a bs).st = s.st := by
  induction bs generalizing s a with
  | nil => rfl
  | cons x xs ih => simp [State.writeBytes, ih]
@[simp] theorem State.writeBytes_fb (bs : List Byte) (a : Nat) : (s.writeBytes a bs).fb = s.fb := by
  induction bs generalizing s a with
  | nil => rfl
  | cons x xs ih => simp [State.writeBytes, ih]
@[simp] theorem State.writeBytes_keys (bs : List Byte) (a : Nat) : (s.writeBytes a bs).keys = s.keys := by
  induction bs generalizing s a with
  | nil => rfl
  | cons x xs ih => simp [State.writeBytes, ih]
@[simp] theorem State.writeBytes_draws (bs : List Byte) (a : Nat) : (s.writeBytes a bs).draws = s.draws := by
  induction bs generalizing s a with
  | nil => rfl
  | cons x xs ih => simp [State.writeBytes, ih]
@[simp] theorem State.writeBytes_config (bs : List Byte) (a : Nat) : (s.writeBytes a bs).config = s.config := by
  induction bs generalizing s a with
  | nil => rfl
  | cons x xs ih => simp [State.writeBytes, ih]
@[simp] theorem State.writeBytes_reg (bs : List Byte) (a : Nat) (r : Reg) :
    (s.writeBytes a bs).reg r = s.reg r := by simp [State.reg]
@[simp] theorem State.writeBytes_keyDown (bs : List Byte) (a : Nat) (k : Key) :
    (s.writeBytes a bs).keyDown k = s.keyDown k := by simp [State.keyDown]
@[simp] theorem State.writeBytes_pixel (bs : List Byte) (a px py : Nat) :
    (s.writeBytes a bs).pixel px py = s.pixel px py := by simp [State.pixel]

end Sys2Proof.Machine
end

