-- ==== Sys2Proof/Laws/Step.lean ====
section
/-! SUPPORT. What each shared operation of the step can answer: the range check, the key-index check, the timer phase,
and the step itself. -/

namespace Sys2Proof.Machine

theorem checkAddress_next_iff {h : Nat} {k : Outcome} {t : State} :
    checkAddress h k = .next t ↔ h ≤ 0xFFF ∧ k = .next t := by
  unfold checkAddress raise; split <;> simp_all

theorem checkAddress_fault_iff {h : Nat} {k : Outcome} {f : Fault} :
    checkAddress h k = .fault f ↔ (h ≤ 0xFFF ∧ k = .fault f) ∨ (0xFFF < h ∧ f = .addressOutOfRange h) := by
  unfold checkAddress raise; split
  · rename_i hh; simp [hh, Nat.not_lt.mpr hh]
  · rename_i hh; simp [hh, Nat.lt_of_not_le hh, eq_comm]

theorem checkAddress_refused_iff {h : Nat} {k : Outcome} {r : Refusal} :
    checkAddress h k = .refused r ↔ h ≤ 0xFFF ∧ k = .refused r := by
  unfold checkAddress raise; split <;> simp_all

theorem checkAddress_of_le {h : Nat} (hh : h ≤ 0xFFF) (k : Outcome) : checkAddress h k = k := if_pos hh

theorem checkAddress_of_gt {h : Nat} (hh : 0xFFF < h) (k : Outcome) :
    checkAddress h k = .fault (.addressOutOfRange h) := if_neg (Nat.not_le.mpr hh)

/-- A key index in range goes on with that key; one above 15 is reported (R190, R204). -/
theorem withKeyIndex_eq (b : Byte) (k : Key → Outcome) :
    (∃ j : Key, j.val = b.toNat ∧ withKeyIndex b k = k j) ∨
      (15 < b.toNat ∧ withKeyIndex b k = .fault (.keyIndexOutOfRange b)) := by
  unfold withKeyIndex raise
  by_cases h : b.toNat < 16
  · exact .inl ⟨⟨b.toNat, h⟩, rfl, dif_pos h⟩
  · exact .inr ⟨by omega, dif_neg h⟩

theorem thenTick_next_iff {o : Outcome} {t : State} :
    thenTick o = .next t ↔ ∃ u, o = .next u ∧ t = u.tickTimers := by
  cases o <;> simp [thenTick, eq_comm]

theorem thenTick_fault_iff {o : Outcome} {f : Fault} : thenTick o = .fault f ↔ o = .fault f := by
  cases o <;> simp [thenTick]

theorem thenTick_refused_iff {o : Outcome} {r : Refusal} : thenTick o = .refused r ↔ o = .refused r := by
  cases o <;> simp [thenTick]

/-- A successful step: fetch is possible, the instruction succeeds on the advanced state, and the timers tick. -/
theorem step_next_iff {s t : State} :
    step s = .next t ↔ s.CanFetch ∧ ∃ u, exec (decodeWord s.opcode) s.advance = .next u ∧ t = u.tickTimers := by
  rw [step, cycle, checkAddress_next_iff, thenTick_next_iff, State.CanFetch]
  constructor <;> rintro ⟨h, r⟩ <;> exact ⟨by omega, r⟩

/-- A faulting step: the fetch is out of range, or the instruction faults on the advanced state. -/
theorem step_fault_iff {s : State} {f : Fault} :
    step s = .fault f ↔ (s.CanFetch ∧ exec (decodeWord s.opcode) s.advance = .fault f) ∨
      (0xFFE < s.pc.toNat ∧ f = .addressOutOfRange (s.pc.toNat + 1)) := by
  rw [step, cycle, checkAddress_fault_iff, thenTick_fault_iff, State.CanFetch]
  constructor <;> rintro (⟨h, r⟩ | ⟨h, r⟩)
  · exact .inl ⟨by omega, r⟩
  · exact .inr ⟨by omega, r⟩
  · exact .inl ⟨by omega, r⟩
  · exact .inr ⟨by omega, r⟩

/-- A step where fetch is possible. -/
theorem step_of_canFetch {s : State} (h : s.CanFetch) :
    step s = thenTick (exec (decodeWord s.opcode) s.advance) := by
  rw [step, cycle, checkAddress_of_le (by have := h; simp only [State.CanFetch] at this; omega)]

end Sys2Proof.Machine
end

