-- ==== Sys2Proof/Laws/Display.lean ====
section
/-! SUPPORT. The sprite blit, pixel by pixel. -/

namespace Sys2Proof.Machine

variable (s : State)

/-- A sprite row on the screen: bit 7 at column `x0`, eight columns, clipped at column 63. -/
theorem spriteRow_getMsbD (b : Byte) (x0 px : Nat) :
    (spriteRow b x0).getMsbD px = (decide (px < 64) && decide (x0 ≤ px) && decide (px < x0 + 8) &&
      b.getLsbD (7 - (px - x0))) := by
  unfold spriteRow
  rw [BitVec.getMsbD_ushiftRight]
  by_cases h1 : px < x0
  · simp [h1]
  · by_cases h2 : px < 64
    · rw [BitVec.getMsbD_append]
      by_cases h3 : px < x0 + 8
      · have : px - x0 < 8 := by omega
        simp [h1, h2, h3, this, BitVec.getMsbD, show x0 ≤ px by omega]
      · have : ¬ px - x0 < 8 := by omega
        simp [h1, h2, h3, this]
    · simp [h2]

/-- The sprite's pixels in a screen row. -/
theorem State.spriteMask_getMsbD (x0 y0 rows px py : Nat) :
    (s.spriteMask x0 y0 rows py).getMsbD px = true ↔
      (y0 ≤ py ∧ py < y0 + rows) ∧ px < 64 ∧ x0 ≤ px ∧ px < x0 + 8 ∧
        (s.readByte (s.i.toNat + (py - y0))).getLsbD (7 - (px - x0)) = true := by
  unfold State.spriteMask
  split
  · rename_i h; simp [spriteRow_getMsbD, h, and_assoc]
  · rename_i h; simp [h]

/-- A pixel after the blit: XORed with the sprite's pixel, on the screen. -/
theorem State.pixel_blit (x0 y0 rows px py : Nat) :
    (s.blit x0 y0 rows).pixel px py =
      (s.pixel px py ^^ (decide (py < 32) && (s.spriteMask x0 y0 rows py).getMsbD px)) := by
  unfold State.pixel
  by_cases h : py < 32
  · simp [h, State.blit, BitVec.getMsbD_xor]
  · simp [h]

@[simp] theorem State.pixel_clearFb (px py : Nat) : s.clearFb.pixel px py = false := by
  simp [State.pixel, State.clearFb]

/-- The collision flag: some sprite pixel lies on an on-pixel. -/
theorem State.collides_iff (x0 y0 rows : Nat) :
    s.collides x0 y0 rows = true ↔
      ∃ px py, py < 32 ∧ (s.spriteMask x0 y0 rows py).getMsbD px = true ∧ s.pixel px py = true := by
  have hz : ∀ w : BitVec 64, w ≠ 0 ↔ ∃ k, w.getMsbD k = true := by
    intro w
    constructor
    · intro h
      by_contra hn
      push Not at hn
      exact h (BitVec.eq_of_getMsbD_eq fun k _ => by simpa using hn k)
    · rintro ⟨k, hk⟩ rfl
      simp at hk
  unfold State.collides State.pixel
  simp only [List.any_eq_true, List.mem_finRange, true_and, bne_iff_ne, hz, BitVec.getMsbD_and, Bool.and_eq_true]
  constructor
  · rintro ⟨y, k, h1, h2⟩
    exact ⟨k, y.val, y.isLt, h2, by simpa [y.isLt] using h1⟩
  · rintro ⟨px, py, hy, h1, h2⟩
    refine ⟨⟨py, hy⟩, px, ?_, h1⟩
    simpa [hy] using h2

/-- `DRW` from an origin where every row to draw is in memory. -/
theorem drawAt_of_inRange {x0 y0 : Nat} {n : Nibble}
    (h : visibleRows n y0 = 0 ∨ s.i.toNat + visibleRows n y0 - 1 ≤ 0xFFF) :
    drawAt x0 y0 n s = .next ((s.blit x0 y0 (visibleRows n y0)).setReg Reg.vF
      (boolByte (s.collides x0 y0 (visibleRows n y0)))) := by
  unfold drawAt
  dsimp only
  split
  · rfl
  · exact checkAddress_of_le (by simp only [effAddr]; omega) _

/-- `DRW` from an origin where a row to draw lies above memory. -/
theorem drawAt_of_outOfRange {x0 y0 : Nat} {n : Nibble} (h0 : visibleRows n y0 ≠ 0)
    (h : 0xFFF < s.i.toNat + visibleRows n y0 - 1) :
    drawAt x0 y0 n s = .fault (.addressOutOfRange (s.i.toNat + visibleRows n y0 - 1)) := by
  unfold drawAt
  dsimp only
  rw [if_neg h0, checkAddress_of_gt (by simp only [effAddr]; omega), effAddr,
    Nat.add_sub_assoc (Nat.one_le_iff_ne_zero.mpr h0)]

end Sys2Proof.Machine
end

