-- ==== Sys2Proof/Laws/Memory.lean ====
section
/-! SUPPORT. Memory: a read after a write to the same place gives the value written, a write leaves every other place
alone, and every operation keeps the canonical form. -/

namespace Sys2Proof.Machine

section Cells
variable (font : Vector Byte 80)

theorem Memory.read_erase (m : Memory) (a b : Nat) :
    Memory.read font (Memory.erase m a) b = if b = a then unlisted font b else Memory.read font m b := by
  induction m with
  | nil => simp [Memory.erase, Memory.read]
  | cons e m ih =>
    obtain ⟨c, w⟩ := e
    by_cases h : a = c
    · subst h
      simp only [Memory.erase, Memory.read, reduceIte, ih]
      split <;> simp_all
    · simp only [Memory.erase, if_neg h, Memory.read, ih]; split <;> simp_all [eq_comm]

theorem Memory.read_insert_erase (m : Memory) (a b : Nat) (x : Byte) :
    Memory.read font (Memory.insert (Memory.erase m a) a x) b = if b = a then x else Memory.read font m b := by
  induction m with
  | nil => simp [Memory.erase, Memory.insert, Memory.read]
  | cons e m ih =>
    obtain ⟨c, w⟩ := e
    by_cases h : a = c
    · subst h
      simp only [Memory.erase, Memory.read, reduceIte, ih]
      split <;> simp_all
    · simp only [Memory.erase, if_neg h, Memory.insert]
      split
      · have := Memory.read_erase font m a b
        simp only [Memory.read]; split <;> simp_all
      · simp only [Memory.read, ih]; split <;> simp_all [eq_comm]

/-- Read after write. -/
theorem Memory.read_write (m : Memory) (a b : Nat) (x : Byte) :
    Memory.read font (Memory.write font m a x) b = if b = a then x else Memory.read font m b := by
  unfold Memory.write
  split
  · rename_i h; rw [Memory.read_erase]; split <;> simp_all
  · exact Memory.read_insert_erase font m a b x

theorem Memory.wfFrom_mono {lo lo' : Nat} (h : lo' ≤ lo) {m : Memory} (hm : Memory.wfFrom font lo m = true) :
    Memory.wfFrom font lo' m = true := by
  cases m with
  | nil => rfl
  | cons e m =>
    obtain ⟨a, x⟩ := e
    simp only [Memory.wfFrom, Bool.and_eq_true, decide_eq_true_eq] at hm ⊢
    exact ⟨⟨⟨by omega, hm.1.1.2⟩, hm.1.2⟩, hm.2⟩

theorem Memory.wfFrom_erase {lo : Nat} {m : Memory} (hm : Memory.wfFrom font lo m = true) (a : Nat) :
    Memory.wfFrom font lo (Memory.erase m a) = true := by
  induction m generalizing lo with
  | nil => rfl
  | cons e m ih =>
    obtain ⟨c, w⟩ := e
    simp only [Memory.wfFrom, Bool.and_eq_true, decide_eq_true_eq] at hm
    by_cases h : a = c
    · simp only [Memory.erase, if_pos h]
      exact ih (Memory.wfFrom_mono font (by omega) hm.2)
    · simp only [Memory.erase, if_neg h, Memory.wfFrom, Bool.and_eq_true, decide_eq_true_eq]
      exact ⟨hm.1, ih hm.2⟩

theorem Memory.wfFrom_insert_erase {lo : Nat} {m : Memory} (hm : Memory.wfFrom font lo m = true) {a : Nat} {x : Byte}
    (hlo : lo ≤ a) (ha : a < Config.memSize) (hx : x ≠ unlisted font a) :
    Memory.wfFrom font lo (Memory.insert (Memory.erase m a) a x) = true := by
  induction m generalizing lo with
  | nil => simp [Memory.erase, Memory.insert, Memory.wfFrom, hlo, ha, hx]
  | cons e m ih =>
    obtain ⟨c, w⟩ := e
    simp only [Memory.wfFrom, Bool.and_eq_true, decide_eq_true_eq] at hm
    by_cases h : a = c
    · simp only [Memory.erase, if_pos h]
      exact ih (Memory.wfFrom_mono font (by omega) hm.2) hlo
    · simp only [Memory.erase, if_neg h, Memory.insert]
      split
      · rename_i hac
        simp only [Memory.wfFrom, Bool.and_eq_true, decide_eq_true_eq]
        exact ⟨⟨⟨hlo, ha⟩, hx⟩, ⟨⟨by omega, hm.1.1.2⟩, hm.1.2⟩, Memory.wfFrom_erase font hm.2 a⟩
      · simp only [Memory.wfFrom, Bool.and_eq_true, decide_eq_true_eq]
        exact ⟨hm.1, ih hm.2 (by omega)⟩

/-- A write inside the address space keeps the canonical form. -/
theorem Memory.wf_write {m : Memory} (hm : Memory.wf font m = true) {a : Nat} (ha : a < Config.memSize) (x : Byte) :
    Memory.wf font (Memory.write font m a x) = true := by
  unfold Memory.write
  split
  · exact Memory.wfFrom_erase font hm a
  · exact Memory.wfFrom_insert_erase font hm (Nat.zero_le a) ha ‹_›

/-- The empty list is canonical. -/
theorem Memory.wf_nil : Memory.wf font [] = true := rfl

/-- Outside the font region an unlisted address reads as zero. -/
theorem unlisted_of_not_font {a : Nat} (h : a < 0x050 ∨ 0x09F < a) : unlisted font a = 0 := by
  unfold unlisted
  rw [dif_neg (by simp only [Config.fontBase]; omega)]

/-- In the font region an unlisted address reads as the glyph byte. -/
theorem unlisted_font {k : Nat} (h : k < 80) : unlisted font (0x050 + k) = font[k] := by
  unfold unlisted
  rw [dif_pos (by simp only [Config.fontBase]; omega)]
  congr 1
  simp [Config.fontBase]

end Cells

variable (s : State)

@[simp] theorem State.readByte_writeByte (a b : Nat) (x : Byte) :
    (s.writeByte a x).readByte b = if b = a then x else s.readByte b :=
  Memory.read_write s.config.fontData s.mem a b x

/-- Bytes outside the written range read as before. -/
theorem State.readByte_writeBytes_outside (bs : List Byte) (a b : Nat) (h : b < a ∨ a + bs.length ≤ b) :
    (s.writeBytes a bs).readByte b = s.readByte b := by
  induction bs generalizing s a with
  | nil => rfl
  | cons x xs ih =>
    simp only [List.length_cons] at h
    rw [State.writeBytes, ih _ _ (by omega), State.readByte_writeByte, if_neg (by omega)]

/-- The `k`-th byte written reads back. -/
theorem State.readByte_writeBytes_inside (bs : List Byte) (a k : Nat) (h : k < bs.length) :
    (s.writeBytes a bs).readByte (a + k) = bs[k] := by
  induction bs generalizing s a k with
  | nil => simp at h
  | cons x xs ih =>
    rw [State.writeBytes]
    cases k with
    | zero => rw [State.readByte_writeBytes_outside _ _ _ _ (by omega)]; simp
    | succ k =>
      have := ih (s.writeByte a x) (a + 1) k (by simpa using h)
      rw [show a + (k + 1) = a + 1 + k by omega, this]; rfl

/-- A store inside the address space keeps the canonical form. -/
theorem State.memoryCanonical_writeByte {s : State} (hs : s.MemoryCanonical) {a : Nat} (ha : a < Config.memSize)
    (x : Byte) : (s.writeByte a x).MemoryCanonical :=
  Memory.wf_write s.config.fontData hs ha x

/-- A block store inside the address space keeps the canonical form. -/
theorem State.memoryCanonical_writeBytes {s : State} (hs : s.MemoryCanonical) {a : Nat} (bs : List Byte)
    (ha : a + bs.length ≤ Config.memSize) : (s.writeBytes a bs).MemoryCanonical := by
  induction bs generalizing s a with
  | nil => exact hs
  | cons x xs ih =>
    simp only [List.length_cons] at ha
    exact ih (State.memoryCanonical_writeByte hs (by omega) x) (by omega)

end Sys2Proof.Machine
end

