-- ==== Sys2Proof/Laws/Registers.lean ====
section
/-! SUPPORT. The register file, the stack and the keys: what a read gives after each write. -/

namespace Sys2Proof.Machine

variable (s : State)

theorem State.reg_setReg (x r : Reg) (b : Byte) : (s.setReg x b).reg r = if r = x then b else s.reg r := by
  simp only [State.reg, State.setReg, Vector.getElem_set, Fin.ext_iff, eq_comm]

@[simp] theorem State.reg_setReg_same (x : Reg) (b : Byte) : (s.setReg x b).reg x = b := by simp [State.reg_setReg]

theorem State.reg_setReg_ne {x r : Reg} (h : r ≠ x) (b : Byte) : (s.setReg x b).reg r = s.reg r := by
  simp [State.reg_setReg, h]

@[simp] theorem State.reg_loadRegs (x r : Reg) (a : Nat) :
    (s.loadRegs x a).reg r = if r ≤ x then s.readByte (a + r.val) else s.reg r := by
  simp [State.reg, State.loadRegs]

@[simp] theorem State.regsUpTo_length (x : Reg) : (s.regsUpTo x).length = x.val + 1 := by
  simp [State.regsUpTo]

theorem State.regsUpTo_getElem (x : Reg) (k : Nat) (h : k < (s.regsUpTo x).length) :
    (s.regsUpTo x)[k] = s.reg ⟨k, by simp at h; omega⟩ := by
  simp [State.regsUpTo, State.reg]

theorem State.keyDown_setKey (k j : Key) (down : Bool) :
    (s.setKey k down).keyDown j = if j = k then down else s.keyDown j := by
  simp only [State.keyDown, State.setKey, Vector.getElem_set, Fin.ext_iff, eq_comm]

/-- The pushed entry is where the stack pointer was, and every other slot keeps its value. -/
theorem State.push_stack_getElem (ret : Word) (h : s.sp.val < 16) (k : Nat) (hk : k < 16) :
    (s.push ret h).stack[k] = if k = s.sp.val then ret else s.stack[k] := by
  simp only [State.push, Vector.getElem_set, eq_comm]

@[simp] theorem State.push_sp (ret : Word) (h : s.sp.val < 16) : (s.push ret h).sp.val = s.sp.val + 1 := rfl

@[simp] theorem State.pop_sp (h : 0 < s.sp.val) : (s.pop h).sp.val = s.sp.val - 1 := rfl

/-- `leastKey` answers a pressed key with none pressed below it. -/
theorem State.leastKey_eq_some_iff (k : Key) :
    s.leastKey = some k ↔ s.keyDown k = true ∧ ∀ j < k, s.keyDown j = false := by
  unfold State.leastKey
  rw [List.find?_eq_some_iff_getElem]
  constructor
  · rintro ⟨hk, n, hn, rfl, hlt⟩
    refine ⟨hk, fun j hj => ?_⟩
    have hjn : j.val < n := by
      have := Fin.lt_def.mp hj
      simpa only [List.getElem_finRange, Fin.val_cast] using this
    have := hlt j.val hjn
    simpa using this
  · rintro ⟨hk, hlt⟩
    refine ⟨hk, k.val, by simp, by simp, fun j hj => ?_⟩
    have := hlt ⟨j, by omega⟩ (by simpa [Fin.lt_def] using hj)
    simp [this]

/-- `leastKey` answers none exactly when no key is pressed. -/
theorem State.leastKey_eq_none_iff : s.leastKey = none ↔ ∀ k, s.keyDown k = false := by
  simp [State.leastKey]

/-- The subtractions: `VF` takes the flag, then `dst` the difference of the registers as the flag write left them. -/
theorem State.reg_subtractInto (dst a b r : Reg) :
    (s.subtractInto dst a b).reg r =
      let f := noBorrowFlag (s.reg a) (s.reg b)
      if r = dst then (if a = Reg.vF then f else s.reg a) - (if b = Reg.vF then f else s.reg b)
      else if r = Reg.vF then f else s.reg r := by
  simp only [State.subtractInto, State.reg_setReg]

/-- A difference on numbers. -/
theorem sub_toNat (a b : Byte) : (a - b).toNat = (a.toNat + 256 - b.toNat) % 256 := by
  have := a.isLt
  have := b.isLt
  rw [BitVec.toNat_sub]; omega

/-- The timers' decrement on numbers. -/
@[simp] theorem decrement_toNat (b : Byte) : (decrement b).toNat = b.toNat - 1 := by
  unfold decrement
  split
  · simp_all
  · rename_i h
    have : b.toNat ≠ 0 := fun h0 => h (BitVec.eq_of_toNat_eq (by simpa using h0))
    rw [BitVec.toNat_sub]; simp; omega

@[simp] theorem boolByte_toNat (b : Bool) : (boolByte b).toNat = if b then 1 else 0 := by cases b <;> rfl

end Sys2Proof.Machine
end

