-- ==== Sys2Proof/Laws/Frame.lean ====
section
/-! SUPPORT. The frame of each shared operation, and how frames compose. -/

namespace Sys2Proof.Machine

theorem Frame.refl (s : State) : Frame s s [] [] := by
  constructor <;> simp

/-- A frame may be weakened. -/
theorem Frame.mono {s t : State} {regs regs' : List Reg} {free free' : List Part} (h : Frame s t regs free)
    (hr : ∀ r ∈ regs, r ∈ regs') (hf : ∀ p ∈ free, p ∈ free') : Frame s t regs' free' where
  regs r hn := h.regs r fun hm => hn (hr r hm)
  pc hn := h.pc fun hm => hn (hf _ hm)
  index hn := h.index fun hm => hn (hf _ hm)
  sp hn := h.sp fun hm => hn (hf _ hm)
  stack hn := h.stack fun hm => hn (hf _ hm)
  delay hn := h.delay fun hm => hn (hf _ hm)
  sound hn := h.sound fun hm => hn (hf _ hm)
  screen hn := h.screen fun hm => hn (hf _ hm)
  memory hn := h.memory fun hm => hn (hf _ hm)
  draws hn := h.draws fun hm => hn (hf _ hm)
  keys := h.keys
  config := h.config

/-- Two changes one after the other. -/
theorem Frame.trans {s t u : State} {regs : List Reg} {free : List Part} (h : Frame s t regs free)
    (h' : Frame t u regs free) : Frame s u regs free where
  regs r hn := (h'.regs r hn).trans (h.regs r hn)
  pc hn := (h'.pc hn).trans (h.pc hn)
  index hn := (h'.index hn).trans (h.index hn)
  sp hn := (h'.sp hn).trans (h.sp hn)
  stack hn := (h'.stack hn).trans (h.stack hn)
  delay hn := (h'.delay hn).trans (h.delay hn)
  sound hn := (h'.sound hn).trans (h.sound hn)
  screen hn x y := (h'.screen hn x y).trans (h.screen hn x y)
  memory hn a := (h'.memory hn a).trans (h.memory hn a)
  draws hn := (h'.draws hn).trans (h.draws hn)
  keys := h'.keys.trans h.keys
  config := h'.config.trans h.config

variable (s : State)

theorem frame_setReg (x : Reg) (b : Byte) : Frame s (s.setReg x b) [x] [] := by
  constructor <;> simp +contextual [State.reg_setReg]

theorem frame_subtractInto (dst a b : Reg) : Frame s (s.subtractInto dst a b) [dst, Reg.vF] [] :=
  ((frame_setReg s Reg.vF _).mono (by simp) (by simp)).trans ((frame_setReg _ dst _).mono (by simp) (by simp))

theorem frame_setPc (a : Word) : Frame s (s.setPc a) [] [.pc] := by
  constructor <;> simp

theorem frame_skipIf (c : Bool) : Frame s (s.skipIf c) [] [.pc] := by
  constructor <;> simp

theorem frame_setI (a : Word) : Frame s (s.setI a) [] [.index] := by
  constructor <;> simp

theorem frame_setDt (b : Byte) : Frame s (s.setDt b) [] [.delay] := by
  constructor <;> simp

theorem frame_setSt (b : Byte) : Frame s (s.setSt b) [] [.sound] := by
  constructor <;> simp

theorem frame_push (ret : Word) (h : s.sp.val < 16) : Frame s (s.push ret h) [] [.stack] := by
  constructor <;> simp

theorem frame_pop (h : 0 < s.sp.val) : Frame s (s.pop h) [] [.stack] := by
  constructor <;> simp

theorem frame_clearFb : Frame s s.clearFb [] [.screen] := by
  constructor <;> simp

theorem frame_blit (x0 y0 rows : Nat) : Frame s (s.blit x0 y0 rows) [] [.screen] := by
  constructor <;> simp

theorem frame_writeBytes (a : Nat) (bs : List Byte) : Frame s (s.writeBytes a bs) [] [.memory] := by
  constructor <;> simp

theorem frame_takeDraw : Frame s s.takeDraw [] [.draws] := by
  constructor <;> simp

theorem frame_tickTimers : Frame s s.tickTimers [] [.delay, .sound] := by
  constructor <;> simp

theorem frame_loadRegs (x : Reg) (a : Nat) : Frame s (s.loadRegs x a) ((List.finRange 16).filter (· ≤ x)) [] := by
  constructor <;> simp +contextual

end Sys2Proof.Machine
end

