-- ==== Sys2Proof/Laws/PerInstr.lean ====
section
/-! SUPPORT. One family of statements about the instructions as syntax: the canonical word of a well-formed instruction
meets the mask and the pattern of its own row of the opcode table (R74, R83). -/

namespace Sys2Proof.Laws

theorem and_ones4 (f : Nibble) : f &&& 0xF = f := by revert f; decide
theorem and_ones8 (k : Byte) : k &&& 0xFF = k := by revert k; decide
theorem and_zeros {n : Nat} (k : BitVec n) : k &&& 0 = 0 := by simp

/-- A mask of the high nibble keeps the family of an address word. -/
theorem wordA_and_family (f : Nibble) (nnn : Addr) : wordA f nnn &&& 0xF000 = wordA f 0 := by
  show (f ++ nnn) &&& ((0xF : Nibble) ++ (0 : Addr)) = _
  rw [BitVec.and_append, and_ones4, and_zeros]; rfl

/-- A mask of the high nibble keeps the family of an immediate word. -/
theorem wordXI_and_family (f : Nibble) (x : Reg) (k : Byte) : wordXI f x k &&& 0xF000 = wordA f 0 :=
  wordA_and_family f _

/-- A mask of the high nibble keeps the family of a two-register word. -/
theorem wordXYN_and_family (f : Nibble) (x y : Reg) (n : Nibble) : wordXYN f x y n &&& 0xF000 = wordA f 0 :=
  wordA_and_family f _

/-- A mask of the high nibble and the low byte keeps the family and the immediate. -/
theorem wordXI_and_byte (f : Nibble) (x : Reg) (k : Byte) : wordXI f x k &&& 0xF0FF = wordXI f 0 k := by
  show (f ++ (x.toNibble ++ k : Addr)) &&& ((0xF : Nibble) ++ ((0 : Nibble) ++ (0xFF : Byte) : Addr)) = _
  rw [BitVec.and_append, BitVec.and_append, and_ones4, and_ones8, and_zeros]; rfl

/-- A mask of the high and the low nibble keeps the family and the sub-opcode. -/
theorem wordXYN_and_low (f : Nibble) (x y : Reg) (n : Nibble) : wordXYN f x y n &&& 0xF00F = wordXYN f 0 0 n := by
  show (f ++ (x.toNibble ++ (y.toNibble ++ n : Byte) : Addr)) &&&
    ((0xF : Nibble) ++ ((0 : Nibble) ++ ((0 : Nibble) ++ (0xF : Nibble) : Byte) : Addr)) = _
  rw [BitVec.and_append, BitVec.and_append, BitVec.and_append, and_ones4, and_ones4, and_zeros, and_zeros]
  rfl

/-- A mask of the high and the low nibble keeps the family and the immediate's low nibble. -/
theorem wordXI_and_low (f : Nibble) (x : Reg) (k : Byte) :
    wordXI f x k &&& 0xF00F = wordXI f 0 (k &&& 0x0F) := by
  show (f ++ (x.toNibble ++ k : Addr)) &&& ((0xF : Nibble) ++ ((0 : Nibble) ++ (0x0F : Byte) : Addr)) = _
  rw [BitVec.and_append, BitVec.and_append, and_ones4, and_zeros]; rfl

namespace CanonicalRow

/-- The row of an instruction's own mnemonic is in the table and accepts the instruction's canonical word. -/
def Statement (i : Instr) : Prop :=
  i.WellFormed → ∃ r ∈ opcodeTable, r.mnemonic = i.mnemonic ∧ r.accepts (encode i) = true

/-- From a row of the table, its mnemonic and the masked word. -/
theorem of_row {i : Instr} (m : String) (p k : Word) (hr : ⟨m, p, k⟩ ∈ opcodeTable) (hm : m = i.mnemonic)
    (hw : encode i &&& k = p) : Statement i :=
  fun _ => ⟨⟨m, p, k⟩, hr, hm, by simp [OpcodeRow.accepts, hw]⟩

theorem cls : Statement .cls :=
  of_row "CLS" 0x0000 0xF00F (by decide) rfl (by decide)
theorem ret : Statement .ret :=
  of_row "RET" 0x000E 0xF00F (by decide) rfl (by decide)
theorem sys (nnn : Addr) : Statement (.sys nnn) :=
  of_row "SYS_addr" 0x0000 0xF000 (by decide) rfl (wordA_and_family _ _)
theorem jmp (nnn : Addr) : Statement (.jmp nnn) :=
  of_row "JMP_addr" 0x1000 0xF000 (by decide) rfl (wordA_and_family _ _)
theorem call (nnn : Addr) : Statement (.call nnn) :=
  of_row "CALL_addr" 0x2000 0xF000 (by decide) rfl (wordA_and_family _ _)
theorem seImm (x : Reg) (nn : Byte) : Statement (.seImm x nn) :=
  of_row "SE_Vx_nn" 0x3000 0xF000 (by decide) rfl (wordXI_and_family _ _ _)
theorem sneImm (x : Reg) (nn : Byte) : Statement (.sneImm x nn) :=
  of_row "SNE_Vx_nn" 0x4000 0xF000 (by decide) rfl (wordXI_and_family _ _ _)
theorem seReg (x : Reg) (y : Reg) : Statement (.seReg x y) :=
  of_row "SE_Vx_Vy" 0x5000 0xF000 (by decide) rfl (wordXYN_and_family _ _ _ _)
theorem ldImm (x : Reg) (nn : Byte) : Statement (.ldImm x nn) :=
  of_row "LD_Vx_nn" 0x6000 0xF000 (by decide) rfl (wordXI_and_family _ _ _)
theorem addImm (x : Reg) (nn : Byte) : Statement (.addImm x nn) :=
  of_row "ADD_Vx_nn" 0x7000 0xF000 (by decide) rfl (wordXI_and_family _ _ _)
theorem mov (x : Reg) (y : Reg) : Statement (.mov x y) :=
  of_row "MOV_Vx_Vy" 0x8000 0xF00F (by decide) rfl (wordXYN_and_low _ _ _ _)
theorem orReg (x : Reg) (y : Reg) : Statement (.orReg x y) :=
  of_row "OR_Vx_Vy" 0x8001 0xF00F (by decide) rfl (wordXYN_and_low _ _ _ _)
theorem andReg (x : Reg) (y : Reg) : Statement (.andReg x y) :=
  of_row "AND_Vx_Vy" 0x8002 0xF00F (by decide) rfl (wordXYN_and_low _ _ _ _)
theorem xorReg (x : Reg) (y : Reg) : Statement (.xorReg x y) :=
  of_row "XOR_Vx_Vy" 0x8003 0xF00F (by decide) rfl (wordXYN_and_low _ _ _ _)
theorem addReg (x : Reg) (y : Reg) : Statement (.addReg x y) :=
  of_row "ADD_Vx_Vy" 0x8004 0xF00F (by decide) rfl (wordXYN_and_low _ _ _ _)
theorem subReg (x : Reg) (y : Reg) : Statement (.subReg x y) :=
  of_row "SUB_Vx_Vy" 0x8005 0xF00F (by decide) rfl (wordXYN_and_low _ _ _ _)
theorem shr (x : Reg) (y : Reg) : Statement (.shr x y) :=
  of_row "SHR_Vx" 0x8006 0xF00F (by decide) rfl (wordXYN_and_low _ _ _ _)
theorem subn (x : Reg) (y : Reg) : Statement (.subn x y) :=
  of_row "SUBN_Vx_Vy" 0x8007 0xF00F (by decide) rfl (wordXYN_and_low _ _ _ _)
theorem shl (x : Reg) (y : Reg) : Statement (.shl x y) :=
  of_row "SHL_Vx" 0x800E 0xF00F (by decide) rfl (wordXYN_and_low _ _ _ _)
theorem nop8 (x : Reg) (y : Reg) (n : Nibble) : Statement (.nop8 x y n) :=
  of_row "NOP.8" 0x8000 0xF000 (by decide) rfl (wordXYN_and_family _ _ _ _)
theorem sneReg (x : Reg) (y : Reg) : Statement (.sneReg x y) :=
  of_row "SNE_Vx_Vy" 0x9000 0xF000 (by decide) rfl (wordXYN_and_family _ _ _ _)
theorem ldI (nnn : Addr) : Statement (.ldI nnn) :=
  of_row "LD_I_addr" 0xA000 0xF000 (by decide) rfl (wordA_and_family _ _)
theorem jmpV0 (nnn : Addr) : Statement (.jmpV0 nnn) :=
  of_row "JMP_V0_addr" 0xB000 0xF000 (by decide) rfl (wordA_and_family _ _)
theorem rnd (x : Reg) (nn : Byte) : Statement (.rnd x nn) :=
  of_row "RND_Vx_nn" 0xC000 0xF000 (by decide) rfl (wordXI_and_family _ _ _)
theorem drw (x : Reg) (y : Reg) (n : Nibble) : Statement (.drw x y n) :=
  of_row "DRW_Vx_Vy_n" 0xD000 0xF000 (by decide) rfl (wordXYN_and_family _ _ _ _)
theorem sknp (x : Reg) : Statement (.sknp x) :=
  of_row "SKNP_Vx" 0xE001 0xF00F (by decide) rfl (wordXI_and_low _ _ _)
theorem skp (x : Reg) : Statement (.skp x) :=
  of_row "SKP_Vx" 0xE00E 0xF00F (by decide) rfl (wordXI_and_low _ _ _)
theorem nopE (x : Reg) (n : Nibble) : Statement (.nopE x n) :=
  of_row "NOP.E" 0xE000 0xF000 (by decide) rfl (wordXYN_and_family _ _ _ _)
theorem ldVxDT (x : Reg) : Statement (.ldVxDT x) :=
  of_row "LD_Vx_DT" 0xF007 0xF0FF (by decide) rfl (wordXI_and_byte _ _ _)
theorem key (x : Reg) : Statement (.key x) :=
  of_row "KEY_Vx" 0xF00A 0xF0FF (by decide) rfl (wordXI_and_byte _ _ _)
theorem ldDTVx (x : Reg) : Statement (.ldDTVx x) :=
  of_row "LD_DT_Vx" 0xF015 0xF0FF (by decide) rfl (wordXI_and_byte _ _ _)
theorem ldSTVx (x : Reg) : Statement (.ldSTVx x) :=
  of_row "LD_ST_Vx" 0xF018 0xF0FF (by decide) rfl (wordXI_and_byte _ _ _)
theorem addI (x : Reg) : Statement (.addI x) :=
  of_row "ADD_I_Vx" 0xF01E 0xF0FF (by decide) rfl (wordXI_and_byte _ _ _)
theorem ldF (x : Reg) : Statement (.ldF x) :=
  of_row "LDF_Vx" 0xF029 0xF0FF (by decide) rfl (wordXI_and_byte _ _ _)
theorem btd (x : Reg) : Statement (.btd x) :=
  of_row "BTD_Vx" 0xF033 0xF0FF (by decide) rfl (wordXI_and_byte _ _ _)
theorem stMem (x : Reg) : Statement (.stMem x) :=
  of_row "ST__I__Vx" 0xF055 0xF0FF (by decide) rfl (wordXI_and_byte _ _ _)
theorem ldMem (x : Reg) : Statement (.ldMem x) :=
  of_row "LD_Vx__I" 0xF065 0xF0FF (by decide) rfl (wordXI_and_byte _ _ _)
theorem nopF (x : Reg) (k : Byte) : Statement (.nopF x k) :=
  of_row "NOP.F" 0xF000 0xF000 (by decide) rfl (wordXI_and_family _ _ _)

end CanonicalRow

end Sys2Proof.Laws
end

