-- ==== Sys2Proof/Laws/Run.lean ====
section
/-! SUPPORT. Runs of several steps, one step at a time. -/

namespace Sys2Proof.Machine

/-- A run of `k + 1` steps of any machine is a step and a run of `k`. -/
theorem coreRun_succ_iff (M : Host.Core) {k : Nat} {s t : M.State} :
    M.run (k + 1) s = .next t ↔ ∃ u, M.step s = .next u ∧ M.run k u = .next t := by
  rw [Host.Core.run]
  cases M.step s <;> simp

@[simp] theorem runsTo_zero {s t : State} : RunsTo s 0 t ↔ s = t := by
  show Host.Outcome.next s = Host.Outcome.next t ↔ s = t
  exact ⟨fun h => by cases h; rfl, fun h => by rw [h]⟩

/-- A run of `k + 1` steps is a step and a run of `k`. -/
theorem runsTo_succ {k : Nat} {s t : State} : RunsTo s (k + 1) t ↔ ∃ u, step s = .next u ∧ RunsTo u k t :=
  coreRun_succ_iff Sys2Proof.core

end Sys2Proof.Machine
end

