-- ==== Sys2Proof/Tests/Slice0.lean ====
section
/-! SUPPORT. Small tests of one step each, with results taken from the spec's own examples and vectors (S, T and rule
numbers in the comments), and witnesses that the hypotheses of the statements can be met. -/

namespace Sys2Proof.Tests

open Sys2Proof Sys2Proof.Machine Sys2Proof.Claims

/-! ## Helpers -/

/-- Reset with some registers set. -/
def regs (l : List (Reg × Byte)) : State := l.foldl (fun s e => s.setReg e.1 e.2) State.reset

/-- The state with a word where the next step fetches. -/
def placed (s : State) (w : Nat) : State := s.withFetchWord 16 w

/-- A reading of the state after one step, or none where the step stops. -/
def after {α : Type} (s : State) (f : State → α) : Option α :=
  match step s with
  | .next t => some (f t)
  | _ => none

/-- The fault of one step, if it faults. -/
def faultAt (s : State) : Option Fault :=
  match step s with
  | .fault f => some f
  | _ => none

/-- One step succeeds. -/
def runs (s : State) : Bool := (after s fun _ => ()).isSome

theorem next_of_runs {s : State} (h : runs s = true) : ∃ t, step s = .next t := by
  unfold runs after at h
  cases hs : step s with
  | next t => exact ⟨t, rfl⟩
  | fault f => simp [hs] at h
  | refused r => simp [hs] at h

theorem fault_of_faultAt {s : State} {f : Fault} (h : faultAt s = some f) : step s = .fault f := by
  unfold faultAt at h
  cases hs : step s with
  | next t => simp [hs] at h
  | fault g => simp [hs] at h; rw [h]
  | refused r => simp [hs] at h

/-- Program counter, one register and `VF` after a step. -/
def pcRegFlag (s : State) (x : Reg) : Option (Nat × Nat × Nat) :=
  after s fun t => (t.pc.toNat, (t.reg x).toNat, (t.reg 15).toNat)

/-- The lit pixels of the first rows and columns given, as `(x, y)`. -/
def lit (s : State) (cols rows : List Nat) : List (Nat × Nat) :=
  rows.flatMap fun y => (cols.filter fun x => s.pixel x y).map fun x => (x, y)

/-! ## WellFormed: an ill-formed term for each check (R78 to R81, R85) -/

theorem test_wf_sys : ¬ (Instr.sys 0x0E0).WellFormed ∧ ¬ (Instr.sys 0x0EE).WellFormed ∧ (Instr.sys 0x123).WellFormed := by
  decide
theorem test_wf_nop8 : ¬ (Instr.nop8 1 2 0x7).WellFormed ∧ ¬ (Instr.nop8 1 2 0xE).WellFormed ∧
    (Instr.nop8 1 2 0x8).WellFormed := by decide
theorem test_wf_nopE : ¬ (Instr.nopE 2 0x1).WellFormed ∧ ¬ (Instr.nopE 2 0xE).WellFormed ∧
    (Instr.nopE 2 0x0).WellFormed := by decide
theorem test_wf_nopF : ¬ (Instr.nopF 1 0x65).WellFormed ∧ (Instr.nopF 1 0x75).WellFormed := by decide

/-! ## Decoding: words written out from R77 to R81 -/

theorem test_decode_family0 : decodeWord 0b0000000011100000 = .cls ∧ decodeWord 0b0000000011101110 = .ret ∧
    decodeWord 0b0000000100100011 = .sys 0x123 ∧ decodeWord 0x0ABE = .ret ∧ decodeWord 0x0000 = .cls := by decide
theorem test_decode_jumps : decodeWord 0b0001001000110100 = .jmp 0x234 ∧ decodeWord 0b0010001100000000 = .call 0x300 ∧
    decodeWord 0b1011001100000000 = .jmpV0 0x300 := by decide
theorem test_decode_skips : decodeWord 0b0011001100101010 = .seImm 3 0x2A ∧ decodeWord 0x432A = .sneImm 3 0x2A ∧
    decodeWord 0b0101000100101111 = .seReg 1 2 ∧ decodeWord 0b1001000100100101 = .sneReg 1 2 := by decide
theorem test_decode_immediates : decodeWord 0b0110101000101100 = .ldImm 10 0x2C ∧ decodeWord 0x7120 = .addImm 1 0x20 ∧
    decodeWord 0b1010000100100011 = .ldI 0x123 ∧ decodeWord 0b1100001100001111 = .rnd 3 0x0F ∧
    decodeWord 0b1101000000010101 = .drw 0 1 5 := by decide
theorem test_decode_family8 : decodeWord 0x8120 = .mov 1 2 ∧ decodeWord 0x8121 = .orReg 1 2 ∧
    decodeWord 0x8122 = .andReg 1 2 ∧ decodeWord 0x8123 = .xorReg 1 2 ∧ decodeWord 0b1000000000010100 = .addReg 0 1 ∧
    decodeWord 0x8105 = .subReg 1 0 ∧ decodeWord 0x8206 = .shr 2 0 ∧ decodeWord 0x8127 = .subn 1 2 ∧
    decodeWord 0x820E = .shl 2 0 ∧ decodeWord 0x8128 = .nop8 1 2 8 ∧ decodeWord 0x812F = .nop8 1 2 15 := by decide
theorem test_decode_familyE : decodeWord 0b1110001010011110 = .skp 2 ∧ decodeWord 0xE2A1 = .sknp 2 ∧
    decodeWord 0xE20E = .skp 2 ∧ decodeWord 0xE2A0 = .nopE 2 0 := by decide
theorem test_decode_familyF : decodeWord 0b1111001100000111 = .ldVxDT 3 ∧ decodeWord 0xF10A = .key 1 ∧
    decodeWord 0xF315 = .ldDTVx 3 ∧ decodeWord 0xF318 = .ldSTVx 3 ∧ decodeWord 0xF21E = .addI 2 ∧
    decodeWord 0xF429 = .ldF 4 ∧ decodeWord 0xF033 = .btd 0 ∧ decodeWord 0xF255 = .stMem 2 ∧
    decodeWord 0xF265 = .ldMem 2 ∧ decodeWord 0xF175 = .nopF 1 0x75 := by decide
theorem test_decode_truncated : decodeBytes [0xA1] = .error .truncated ∧
    decodeBytes [0xA1, 0x23, 0x77] = .ok (.ldI 0x123, [0x77]) := ⟨rfl, rfl⟩

/-! ## Fetch, step cycle, no-ops -/

/-- T4: a jump to 0xFFF, then the fetch faults. -/
theorem test_fetch_fault : faultAt (State.reset.setPc 0xFFF) = some (.addressOutOfRange 0x1000) := by decide
/-- T3: the last legal fetch. -/
theorem test_fetch_last : pcRegFlag (placed (State.reset.setPc 0xFFE) 0x6001) 0 = some (0x1000, 1, 0) := by decide
/-- T14. -/
theorem test_sys_ticks : after (placed ((State.reset.setDt 3).setSt 1) 0x0123) (fun t => (t.dt, t.st, t.pc)) =
    some (2, 0, 0x202) := by decide
/-- T10, T11, T13. -/
theorem test_nops : pcRegFlag (placed (regs [(1, 3)]) 0x8128) 1 = some (0x202, 3, 0) ∧
    pcRegFlag (placed (regs [(2, 0x20)]) 0xE2A0) 2 = some (0x202, 0x20, 0) ∧
    pcRegFlag (placed State.reset 0xF175) 1 = some (0x202, 0, 0) := by decide

/-! ## Control flow -/

/-- R126. -/
theorem test_jmp : after (placed State.reset 0x1234) (·.pc) = some 0x0234 := by decide
/-- T19h: not masked. -/
theorem test_jmpV0 : after (placed (regs [(0, 0xFF)]) 0xBFFF) (·.pc) = some 0x10FE := by decide
/-- T19i: the register is V0, not Vx. -/
theorem test_jmpV0_register : after (placed (regs [(0, 2), (2, 0x40)]) 0xB210) (·.pc) = some 0x212 := by decide
/-- T18. -/
theorem test_call : after (placed { State.reset with sp := 15 } 0x2400) (fun t => (t.stack[15], t.sp, t.pc)) =
    some (0x202, 16, 0x400) := by decide
/-- T19. -/
theorem test_call_overflow : faultAt (placed { State.reset with sp := 16 } 0x2400) = some .stackOverflow := by decide
/-- T19c. -/
theorem test_ret : after (placed { State.reset with sp := 2, stack := (State.reset.stack.set 0 0x202).set 1 0x30A }
    0x00EE) (fun t => (t.pc, t.sp, t.stack[1])) = some (0x30A, 1, 0x30A) := by decide
/-- P6. -/
theorem test_ret_underflow : faultAt (placed State.reset 0x00EE) = some .stackUnderflow := by decide
/-- T19d. -/
theorem test_seImm : after (placed (regs [(3, 0x2A)]) 0x332A) (·.pc) = some 0x204 ∧
    after (placed (regs [(3, 0x2A)]) 0x332B) (·.pc) = some 0x202 := by decide
/-- T19e. -/
theorem test_sneImm : after (placed (regs [(3, 0x2A)]) 0x432A) (·.pc) = some 0x202 ∧
    after (placed (regs [(3, 0x2A)]) 0x432B) (·.pc) = some 0x204 := by decide
/-- T8, T19f. -/
theorem test_seReg : after (placed (regs [(1, 7), (2, 7)]) 0x512F) (·.pc) = some 0x204 ∧
    after (placed (regs [(4, 9)]) 0x5440) (·.pc) = some 0x204 := by decide
/-- T9, T19g. -/
theorem test_sneReg : after (placed (regs [(1, 7), (2, 8)]) 0x9125) (·.pc) = some 0x204 ∧
    after (placed (regs [(4, 9)]) 0x9440) (·.pc) = some 0x202 := by decide

/-! ## Arithmetic and logic -/

/-- T47. -/
theorem test_ldImm : pcRegFlag (placed (regs [(15, 0x55)]) 0x612C) 1 = some (0x202, 0x2C, 0x55) := by decide
/-- T46. -/
theorem test_addImm : pcRegFlag (placed (regs [(1, 0xF0), (15, 0x55)]) 0x7120) 1 = some (0x202, 0x10, 0x55) := by decide
/-- T44. -/
theorem test_mov : pcRegFlag (placed (regs [(2, 0x5C), (15, 0x55)]) 0x8120) 1 = some (0x202, 0x5C, 0x55) := by decide
/-- T40. -/
theorem test_or : pcRegFlag (placed (regs [(1, 0xF0), (2, 0x0F), (15, 0x55)]) 0x8121) 1 = some (0x202, 0xFF, 0x55) := by
  decide
/-- T41. -/
theorem test_and : pcRegFlag (placed (regs [(1, 0xF3), (2, 0x3F), (15, 0x55)]) 0x8122) 1 = some (0x202, 0x33, 0x55) := by
  decide
/-- T42. -/
theorem test_xor : pcRegFlag (placed (regs [(1, 0xFF), (2, 0x0F), (15, 0x55)]) 0x8123) 1 = some (0x202, 0xF0, 0x55) := by
  decide
/-- T21, T23. -/
theorem test_add : pcRegFlag (placed (regs [(1, 0xFF), (2, 1)]) 0x8124) 1 = some (0x202, 0x00, 1) ∧
    pcRegFlag (placed (regs [(1, 0x80), (2, 0x7F)]) 0x8124) 1 = some (0x202, 0xFF, 0) := by decide
/-- T60, T61. -/
theorem test_add_vf : pcRegFlag (placed (regs [(1, 5), (15, 0xFF)]) 0x8F14) 15 = some (0x202, 4, 4) ∧
    pcRegFlag (placed (regs [(1, 5), (15, 0xFF)]) 0x81F4) 1 = some (0x202, 4, 1) := by decide
/-- T26, T29. -/
theorem test_sub : pcRegFlag (placed (regs [(1, 5), (2, 5)]) 0x8125) 1 = some (0x202, 0, 0) ∧
    pcRegFlag (placed (regs [(1, 0xFF), (2, 4)]) 0x8125) 1 = some (0x202, 0xFB, 1) := by decide
/-- T52, T53. -/
theorem test_sub_vf : pcRegFlag (placed (regs [(1, 5), (15, 3)]) 0x81F5) 1 = some (0x202, 4, 1) ∧
    pcRegFlag (placed (regs [(1, 5), (15, 9)]) 0x8F15) 15 = some (0x202, 0xFC, 0xFC) := by decide
/-- T31, T32. -/
theorem test_subn : pcRegFlag (placed (regs [(1, 4), (2, 0x0A)]) 0x8127) 1 = some (0x202, 6, 1) ∧
    pcRegFlag (placed (regs [(1, 0x0A), (2, 4)]) 0x8127) 1 = some (0x202, 0xFA, 0) := by decide
/-- T56, T57. -/
theorem test_subn_vf : pcRegFlag (placed (regs [(1, 5), (15, 3)]) 0x8F17) 15 = some (0x202, 4, 4) ∧
    pcRegFlag (placed (regs [(1, 5), (15, 9)]) 0x81F7) 1 = some (0x202, 0xFC, 1) := by decide
/-- T34, T62. -/
theorem test_shr : pcRegFlag (placed (regs [(1, 5), (2, 0xEE)]) 0x8126) 1 = some (0x202, 2, 1) ∧
    pcRegFlag (placed (regs [(15, 3)]) 0x8F06) 15 = some (0x202, 0, 0) := by decide
/-- T38 (and S12), T63. -/
theorem test_shl : pcRegFlag (placed (regs [(1, 0x80), (2, 0xEE)]) 0x812E) 1 = some (0x202, 0, 1) ∧
    pcRegFlag (placed (regs [(15, 0x81)]) 0x8F0E) 15 = some (0x202, 2, 2) := by decide
/-- T48: the draw is free; one is consumed and `VF` is untouched. -/
theorem test_rnd : after (placed (regs [(15, 0x55)]) 0xC10F) (fun t => (t.pc, t.reg 15, t.draws)) =
    some (0x202, 0x55, 1) := by decide

/-! ## Index and memory -/

/-- S9, T65. -/
theorem test_ldI : after (placed State.reset 0xA123) (fun t => (t.i, t.pc)) = some (0x123, 0x202) ∧
    after (placed State.reset 0xAFFF) (·.i) = some 0xFFF := by decide
/-- T67, T69. -/
theorem test_addI : after (placed ((regs [(2, 0x10)]).setI 0x0F0) 0xF21E) (fun t => (t.i, t.reg 15)) = some (0x100, 0) ∧
    after (placed ((regs [(2, 1)]).setI 0xFFF) 0xF21E) (fun t => (t.i, t.reg 15)) = some (0, 1) := by decide
/-- T71. -/
theorem test_ldF : after (placed (regs [(4, 0x1A)]) 0xF429) (·.i) = some 0x082 ∧
    after (placed (regs [(4, 0x0F)]) 0xF429) (·.i) = some 0x09B := by decide
/-- S7, T75. -/
theorem test_btd : after (placed ((regs [(0, 157)]).setI 0x300) 0xF033)
      (fun t => [t.readByte 0x300, t.readByte 0x301, t.readByte 0x302]) = some [1, 5, 7] ∧
    after (placed ((regs [(3, 123)]).setI 0xFFD) 0xF333)
      (fun t => [t.readByte 0xFFD, t.readByte 0xFFE, t.readByte 0xFFF]) = some [1, 2, 3] := by decide
/-- T76. -/
theorem test_btd_fault : faultAt (placed ((regs [(3, 123)]).setI 0xFFE) 0xF333) =
    some (.addressOutOfRange 0x1000) := by decide
/-- T77. -/
theorem test_stMem : after (placed ((regs [(0, 0x11), (1, 0x22), (2, 0x33), (3, 0x44)]).setI 0x400) 0xF255)
      (fun t => ([t.readByte 0x400, t.readByte 0x401, t.readByte 0x402, t.readByte 0x403], t.i)) =
    some ([0x11, 0x22, 0x33, 0], 0x400) := by decide
/-- T80. -/
theorem test_stMem_fault : faultAt (placed (State.reset.setI 0xFF1) 0xFF55) = some (.addressOutOfRange 0x1000) := by
  decide
/-- T81. -/
theorem test_ldMem : after (placed ((regs [(5, 0x77)]).setI 0x050) 0xF465)
    (fun t => ([t.reg 0, t.reg 1, t.reg 2, t.reg 3, t.reg 4, t.reg 5], t.i)) =
    some ([0xF0, 0x90, 0x90, 0x90, 0xF0, 0x77], 0x050) := by decide
/-- T82. -/
theorem test_ldMem_fault : faultAt (placed (State.reset.setI 0xFFF) 0xF165) = some (.addressOutOfRange 0x1000) := by
  decide

/-! ## Display -/

/-- A state with one sprite byte at 0x300 and the pixels of row 0 given. -/
def canvas (l : List (Reg × Byte)) (b : Byte) (row0 : BitVec 64) : State :=
  { ((regs l).setI 0x300).writeByte 0x300 b with fb := State.reset.fb.set 0 row0 }

/-- S2. -/
theorem test_cls : after (placed (canvas [(15, 9)] 0 0xFF) 0x00E0) (fun t => (t.fb.toList.all (· == 0), t.reg 15)) =
    some (true, 9) := by decide
/-- T87: one erased pixel suffices; bit 7 is the leftmost. -/
theorem test_drw_collision : after (placed (canvas [] 0xC0 0x4000000000000000) 0xD011)
    (fun t => (t.pixel 0 0, t.pixel 1 0, t.reg 15)) = some (true, false, 1) := by decide
/-- T91: clipped at the right edge. -/
theorem test_drw_clip : after (placed (canvas [(0, 62)] 0xFF 0) 0xD011)
    (fun t => (lit t [0, 1, 5, 61, 62, 63] [0, 1], t.reg 15)) = some ([(62, 0), (63, 0)], 0) := by decide
/-- T90, T95: the origin wraps; it is read before `VF` is written. -/
theorem test_drw_origin : after (placed (canvas [(0, 70), (1, 33)] 0x80 0) 0xD011) (·.pixel 6 1) = some true ∧
    after (placed (canvas [(15, 10), (1, 2)] 0x80 0) 0xDF11) (fun t => (t.pixel 10 2, t.reg 15)) = some (true, 0) := by
  decide
/-- T94, T89. -/
theorem test_drw_fault : faultAt (placed (State.reset.setI 0xFFE) 0xD013) = some (.addressOutOfRange 0x1000) ∧
    pcRegFlag (placed ((regs [(15, 1)]).setI 0xFFF) 0xD010) 0 = some (0x202, 0, 0) := by decide
/-- R181: drawing twice over a screen that was on everywhere under the sprite, the second draw does not collide (log
entry 8). -/
theorem test_drw_second_flag : after (placed (canvas [] 0x80 0x8000000000000000) 0xD011) (fun t => (t.pixel 0 0, t.reg 15)) =
      some (false, 1) ∧
    after (placed (canvas [] 0x80 0) 0xD011) (fun t => (t.pixel 0 0, t.reg 15)) = some (true, 0) := by decide

/-! ## Keys and timers -/

/-- T98, T99. -/
theorem test_skp : after (placed ((regs [(2, 7)]).setKey 7 true) 0xE29E) (·.pc) = some 0x204 ∧
    after (placed (regs [(2, 7)]) 0xE29E) (·.pc) = some 0x202 := by decide
/-- T102. -/
theorem test_skp_fault : faultAt (placed ((regs [(2, 0x17)]).setKey 7 true) 0xE29E) =
    some (.keyIndexOutOfRange 0x17) := by decide
/-- T98, T99. -/
theorem test_sknp : after (placed ((regs [(2, 7)]).setKey 7 true) 0xE2A1) (·.pc) = some 0x202 ∧
    after (placed (regs [(2, 7)]) 0xE2A1) (·.pc) = some 0x204 := by decide
/-- T101. -/
theorem test_sknp_fault : faultAt (placed (regs [(2, 16)]) 0xE2A1) = some (.keyIndexOutOfRange 16) := by decide
/-- T105, T104. -/
theorem test_key : pcRegFlag (placed ((State.reset.setKey 3 true).setKey 9 true) 0xF10A) 1 = some (0x202, 3, 0) ∧
    pcRegFlag (placed ({ State.reset with config := { Config.recommended with keyStoreIndex := false } }.setKey 7 true)
      0xF10A) 1 = some (0x202, 1, 0) := by decide
/-- T103. -/
theorem test_key_stall : after (placed ((regs [(1, 0x33)]).setDt 2) 0xF10A) (fun t => (t.pc, t.reg 1, t.dt)) =
    some (0x200, 0x33, 1) := by decide
/-- T108. -/
theorem test_ldVxDT : after (placed (State.reset.setDt 0x2A) 0xF307) (fun t => (t.reg 3, t.dt)) = some (0x2A, 0x29) := by
  decide
/-- T109, T110. -/
theorem test_ldDTVx : after (placed (regs [(3, 5)]) 0xF315) (·.dt) = some 4 ∧
    after (placed (State.reset.setDt 9) 0xF315) (·.dt) = some 0 := by decide
/-- T111, T112. -/
theorem test_ldSTVx : after (placed (regs [(3, 1)]) 0xF318) (fun t => (t.st, t.toneActive)) = some (0, false) ∧
    after (placed (regs [(3, 3)]) 0xF318) (fun t => (t.st, t.toneActive)) = some (2, true) := by decide

/-! ## Reset and loading -/

/-- T113. -/
theorem test_reset_font : [State.reset.readByte 0x04F, State.reset.readByte 0x050, State.reset.readByte 0x09F,
    State.reset.readByte 0x0A0] = [0, 0xF0, 0x80, 0] := by decide
/-- T118. -/
theorem test_load : (match (perform (perform (.running State.reset) (.load [0xAA, 0xBB, 0xCC, 0xDD])).1
      (.load [0x11, 0x22])).1 with
    | .running s => [s.readByte 0x200, s.readByte 0x201, s.readByte 0x202, s.readByte 0x203]
    | .uninitialized _ => []) = [0x11, 0x22, 0xCC, 0xDD] := by decide
/-- Writing what an unlisted address reads as removes the entry (log entry 7). -/
theorem test_memory_canonical : ((State.reset.writeByte 0x300 5).writeByte 0x300 0).mem = [] ∧
    ((State.reset.writeByte 0x050 1).writeByte 0x050 0xF0).mem = [] := by decide

/-! ## Witnesses: states and operands that meet the hypotheses of each statement that has some

A statement not named here has no hypothesis, or only one on a register number or a flag that its own form shows to be
met. -/

theorem test_witness_DecodeInvertsEncode : (Instr.nopF 1 0x75).WellFormed ∧ (Instr.nop8 3 4 0xF).WellFormed := by decide

theorem test_witness_DecodeLooksAtTheBitsItShould :
    (decodeWord 0x512F = decodeWord 0x5120 ∧ family 0x512F = 0x5 ∧ decodeWord 0x9125 = decodeWord 0x9120 ∧
      family 0x9125 = 0x9 ∧ decodeWord 0x5120 ≠ decodeWord 0x5130 ∧ decodeWord 0x5120 ≠ decodeWord 0x5220) ∧
    (family 0x0ABE = 0 ∧ family 0x00EE = 0 ∧ decodeWord 0x0ABE = decodeWord 0x00EE ∧ fieldN 0x0ABE = 0xE ∧
      fieldN 0x0000 = 0x0 ∧ decodeWord 0x0000 ≠ decodeWord 0x00EE) ∧
    (fieldN 0x0123 ≠ 0x0 ∧ fieldN 0x0123 ≠ 0xE ∧ decodeWord 0x0123 ≠ decodeWord 0x0223) ∧
    (family 0xE20E = 0xE ∧ decodeWord 0xE20E = decodeWord 0xE29E ∧ decodeWord 0xE20E ≠ decodeWord 0xE201 ∧
      decodeWord 0xE20E ≠ decodeWord 0xE30E) ∧
    (family 0xF175 ∉ [0x0#4, 0x5#4, 0x9#4, 0xE#4] ∧ unassignedF (fieldNN 0xF175)) ∧
    unassigned0 (fieldN 0x0123) ∧ unassigned8 (fieldN 0x8128) ∧ unassignedE (fieldN 0xE2A0) := by decide

theorem test_witness_StepRunsTheDecodedInstruction :
    let s := placed (State.reset.setPc 0xFFE) 0x6001
    s.CanFetch ∧ (Instr.ldImm 0 1).WellFormed ∧
      decodeBytes [s.readByte s.pc.toNat, s.readByte (s.pc.toNat + 1)] = .ok (.ldImm 0 1, []) :=
  ⟨by unfold State.CanFetch; decide, by decide, rfl⟩

theorem test_witness_FetchIsBigEndianAndInRange : 0xFFE < (State.reset.setPc 0xFFF).pc.toNat := by decide

/-- `ProgramCounterAfterEachInstruction`: a step of `CALL`, and a step that faults. -/
theorem test_witness_ProgramCounter :
    (∃ t, step (placed { State.reset with sp := 15 } 0x2400) = .next t) ∧
    next (placed { State.reset with sp := 15 } 0x2400) = .call 0x400 ∧
    (∃ t r, step (placed State.reset 0x00EE) = .fault .stackUnderflow ∧
      perform (.running (placed State.reset 0x00EE)) .step = (.running t, r)) := by
  refine ⟨next_of_runs (by decide), by decide, placed State.reset 0x00EE, .fault .stackUnderflow, ?_⟩
  have h := fault_of_faultAt test_ret_underflow
  exact ⟨h, by simp [perform, h, settle]⟩

theorem test_witness_TimersTickOncePerStep :
    ((∃ t, step (placed (regs [(3, 5)]) 0xF315) = .next t) ∧ next (placed (regs [(3, 5)]) 0xF315) = .ldDTVx 3) ∧
    ((∃ t, step (placed (regs [(3, 5)]) 0xF318) = .next t) ∧ next (placed (regs [(3, 5)]) 0xF318) = .ldSTVx 3) ∧
    ((∃ t, step (placed (State.reset.setDt 7) 0xF307) = .next t) ∧
      next (placed (State.reset.setDt 7) 0xF307) = .ldVxDT 3) ∧
    ((∃ t, step State.reset = .next t) ∧ (∀ x, next State.reset ≠ .ldDTVx x) ∧ ∀ x, next State.reset ≠ .ldSTVx x) := by
  refine ⟨⟨next_of_runs (by decide), by decide⟩, ⟨next_of_runs (by decide), by decide⟩,
    ⟨next_of_runs (by decide), by decide⟩, next_of_runs (by decide), ?_, ?_⟩ <;> decide

/-- One step of a no-op, and then `LD V3,DT`. -/
theorem test_witness_TimersCountStepsDown :
    ∃ t, RunsTo (((State.reset.setDt 7).setSt 1).writeBytes 0x200 [0x01, 0x23, 0xF3, 0x07]) 1 t ∧
      (∀ j u x, j < 1 → RunsTo (((State.reset.setDt 7).setSt 1).writeBytes 0x200 [0x01, 0x23, 0xF3, 0x07]) j u →
        next u ≠ .ldDTVx x ∧ next u ≠ .ldSTVx x) ∧ t.CanFetch ∧ next t = .ldVxDT 3 := by
  refine ⟨(((State.reset.setDt 7).setSt 1).writeBytes 0x200 [0x01, 0x23, 0xF3, 0x07]).advance.tickTimers, rfl, ?_,
    by unfold State.CanFetch; decide, by decide⟩
  intro j u x hj hu
  obtain rfl : j = 0 := by omega
  cases hu
  revert x; decide

theorem test_witness_StepIgnoresInputs :
    (∀ x, next State.reset ≠ .skp x ∧ next State.reset ≠ .sknp x ∧ next State.reset ≠ .key x) ∧
    ∀ x nn, next State.reset ≠ .rnd x nn := by
  have h : next State.reset = .cls := by decide
  rw [h]; simp

theorem test_witness_FaultsChangeNothing :
    step (placed State.reset 0x00EE) = .fault .stackUnderflow ∧ 3584 < (List.replicate 3585 (0 : Byte)).length :=
  ⟨fault_of_faultAt test_ret_underflow, by rw [List.length_replicate]; decide⟩

/-- `LegalStatesStayLegal`, `MemoryStaysCanonical`, `EverySessionStaysLegal`: reset is legal and canonical, and it steps. -/
theorem test_witness_invariants : State.reset.Legal ∧ State.reset.MemoryCanonical ∧ ∃ t, step State.reset = .next t :=
  ⟨⟨by decide, by decide, by decide⟩, by decide, next_of_runs (by decide)⟩

theorem test_witness_CanonicalMemoryIsUnique : Memory.wf Config.customaryFont [(0x050, 1), (0xFFF, 2)] = true := by decide

/-- `StepWritesOnlyDestinationRegisters` and `FlagAfterEachInstruction`: a step of each instruction with a flag whose
opcode does not name `VF`, and of one without. -/
theorem test_witness_flags :
    (∀ w ∈ [0x8124, 0x8125, 0x8126, 0x8127, 0x812E, 0xD125, 0xF11E, 0x6101],
      ∃ t, step (placed State.reset w) = .next t) ∧
    next (placed State.reset 0x8124) = .addReg 1 2 ∧ next (placed State.reset 0x8125) = .subReg 1 2 ∧
    next (placed State.reset 0x8126) = .shr 1 2 ∧ next (placed State.reset 0x8127) = .subn 1 2 ∧
    next (placed State.reset 0x812E) = .shl 1 2 ∧ next (placed State.reset 0xD125) = .drw 1 2 5 ∧
    next (placed State.reset 0xF11E) = .addI 1 ∧ next (placed State.reset 0x6101) = .ldImm 1 1 ∧
    15 ∉ writtenRegs (.ldImm 1 1) := by
  refine ⟨?_, by decide⟩
  have h : ∀ w ∈ [0x8124, 0x8125, 0x8126, 0x8127, 0x812E, 0xD125, 0xF11E, 0x6101],
      runs (placed State.reset w) = true := by decide
  exact fun w hw => next_of_runs (h w hw)

/-- `SpecialStateChangesOnlyByItsWriters`: each writer runs; a load runs that writes none of it. -/
theorem test_witness_special :
    ((∃ t, step (placed State.reset 0x2400) = .next t) ∧ next (placed State.reset 0x2400) = .call 0x400) ∧
    ((∃ t, step (placed { State.reset with sp := 1 } 0x00EE) = .next t) ∧
      next (placed { State.reset with sp := 1 } 0x00EE) = .ret) ∧
    ((∃ t, step (placed State.reset 0xC10F) = .next t) ∧ next (placed State.reset 0xC10F) = .rnd 1 0x0F) ∧
    ((∃ t, step (placed State.reset 0x6101) = .next t) ∧ next (placed State.reset 0x6101) = .ldImm 1 1) := by
  refine ⟨⟨next_of_runs (by decide), by decide⟩, ⟨next_of_runs (by decide), by decide⟩,
    ⟨next_of_runs (by decide), by decide⟩, ⟨next_of_runs (by decide), by decide⟩⟩

/-- `MemoryChangesOnlyWhereStored`: a step of each storing instruction and an address outside what it stores. -/
theorem test_witness_memory :
    ((∃ t, step (placed (State.reset.setI 0xFFD) 0xF333) = .next t) ∧
      next (placed (State.reset.setI 0xFFD) 0xF333) = .btd 3 ∧ 0xFFC < (State.reset.setI 0xFFD).i.toNat) ∧
    ((∃ t, step (placed (State.reset.setI 0xFF0) 0xFF55) = .next t) ∧
      next (placed (State.reset.setI 0xFF0) 0xFF55) = .stMem 15 ∧ 0xFEF < (State.reset.setI 0xFF0).i.toNat) := by
  refine ⟨⟨next_of_runs (by decide), by decide, by decide⟩, ⟨next_of_runs (by decide), by decide, by decide⟩⟩

/-- `CallPushesAndJumps`, `RetPopsTheProgramCounter`, `RetUndoesCall`: the boundary values of the stack pointer. -/
theorem test_witness_stack :
    State.reset.sp.val < 16 ∧ ({ State.reset with sp := 15 } : State).sp.val < 16 ∧
    ({ State.reset with sp := 16 } : State).sp.val = 16 ∧ 0 < ({ State.reset with sp := 1 } : State).sp.val ∧
    0 < ({ State.reset with sp := 16 } : State).sp.val ∧ State.reset.sp.val = 0 ∧
    ∃ t u : State, exec (.call 0x300) State.reset = .next t ∧ u.sp = t.sp ∧ u.stack = t.stack := by
  refine ⟨by decide, by decide, by decide, by decide, by decide, by decide, _, _, rfl, rfl, rfl⟩

/-- `ComparisonSkips`: equal and different operands. -/
theorem test_witness_skips : (regs [(1, 7), (2, 7)]).reg 1 = (regs [(1, 7), (2, 7)]).reg 2 ∧
    (regs [(1, 7), (2, 8)]).reg 1 ≠ (regs [(1, 7), (2, 8)]).reg 2 ∧ (regs [(1, 7)]).reg 1 = 7 ∧
    (regs [(1, 7)]).reg 1 ≠ 8 := by decide

theorem test_witness_EveryAddIndexFlag : (0 : Nat) ≤ 0x10FE ∧ (0x10FE : Nat) ≤ 0x10FE := by decide

/-- `AddIndexMasksAndFlags`: a state for each instance of the parameter. -/
theorem test_witness_addI : ∀ f ∈ [Config.AddIFlag.past0x100, .past0xFF, .past0xFFF, .past0x100OrOld, .noEffect],
    ({ State.reset with config := { Config.recommended with addIFlag := f } } : State).config.addIFlag = f :=
  fun _ _ => rfl

/-- `BtdStoresDecimalDigits`, `StoreBlock`, `LoadBlock`, `LoadAfterStoreRestores`: the last address in range and the
first out of it. -/
theorem test_witness_ranges :
    effAddr (State.reset.setI 0xFFD) 2 ≤ 0xFFF ∧ 0xFFF < effAddr (State.reset.setI 0xFFE) 2 ∧
    effAddr (State.reset.setI 0xFF0) (15 : Reg).val ≤ 0xFFF ∧ 0xFFF < effAddr (State.reset.setI 0xFF1) (15 : Reg).val ∧
    effAddr (State.reset.setI 0xFFF) (0 : Reg).val ≤ 0xFFF ∧ 0xFEF < effAddr (State.reset.setI 0xFF0) 0 := by decide

theorem test_witness_StoresAreSeen :
    let s := placed (State.reset.setI 0x202) 0xF155
    s.CanFetch ∧ next s = .stMem 1 ∧ 1 ≤ (1 : Reg).val ∧ s.i.toNat = s.pc.toNat + 2 ∧
      s.i.toNat + (1 : Reg).val ≤ 0xFFF := by
  unfold State.CanFetch; decide

/-- `DrwXorsTheSprite` and `DrawingTwiceRestoresTheScreen`: a drawing in range that meets an on-pixel, one on a clear
screen, and one out of range. -/
theorem test_witness_drw :
    (drawInRange (canvas [] 0x80 0x8000000000000000) 1 1 ∧
      spriteAt (canvas [] 0x80 0x8000000000000000) 0 1 1 0 0 ∧
      (canvas [] 0x80 0x8000000000000000).pixel 0 0 = true) ∧
    (spriteAt (canvas [] 0x80 0) 0 1 1 0 0 ∧ (canvas [] 0x80 0).pixel 0 0 = false) ∧
    drawInRange ((regs [(1, 31)]).setI 0xFFF) 1 5 ∧ ¬ drawInRange (State.reset.setI 0xFFE) 1 3 := by
  refine ⟨⟨?_, ⟨0, 0, ?_⟩, ?_⟩, ⟨⟨0, 0, ?_⟩, ?_⟩, ?_, ?_⟩ <;> first | decide | (unfold drawInRange; decide)

/-- `DrawingTwiceRestoresTheScreen`: a state that meets what is asked of the second drawing's, a clear screen, and a
screen that is on everywhere under the sprite. -/
theorem test_witness_drawing_twice :
    (∃ t u : State, exec (.drw 0 1 1) (canvas [(0, 3)] 0x80 0) = .next t ∧ u.fb = t.fb ∧ u.mem = t.mem ∧ u.config = t.config ∧
      u.i = t.i ∧ u.reg 0 = (canvas [(0, 3)] 0x80 0).reg 0 ∧ u.reg 1 = (canvas [(0, 3)] 0x80 0).reg 1) ∧
    (∀ px py, State.reset.pixel px py = false) ∧
    ∀ px py, spriteAt (canvas [] 0x80 0x8000000000000000) 0 1 1 px py →
      (canvas [] 0x80 0x8000000000000000).pixel px py = true := by
  refine ⟨⟨_, _, rfl, rfl, rfl, rfl, rfl, by decide, by decide⟩, ?_, ?_⟩
  · intro px py; simp [State.pixel, State.reset, State.resetWith]
  · rintro px py ⟨r, c, hr, hc, rfl, -, rfl, hb⟩
    have hr0 : rowsDrawn (canvas [] 0x80 0x8000000000000000) 1 1 = 1 := by decide
    obtain rfl : r = 0 := by omega
    revert hb; revert c; decide

/-- `KeySkips`, `KeyWaitsForAKey`: key values at the ends of the range, one above it; a least pressed key, and none. -/
theorem test_witness_keys :
    ((regs [(2, 15)]).reg 2).toNat = (15 : Key).val ∧ ((regs [(2, 0)]).reg 2).toNat = (0 : Key).val ∧
    15 < ((regs [(2, 16)]).reg 2).toNat ∧ (State.reset.setKey 3 true).keyDown 3 = true ∧
    (∀ j : Key, j < 3 → (State.reset.setKey 3 true).keyDown j = false) ∧ ∀ j : Key, State.reset.keyDown j = false := by
  decide

theorem test_witness_KeyStalls : (placed State.reset 0xF10A).CanFetch ∧ next (placed State.reset 0xF10A) = .key 1 ∧
    ∀ j : Key, (placed State.reset 0xF10A).keyDown j = false := by
  unfold State.CanFetch; decide

theorem test_witness_TimerMoves : ∀ w ∈ [0xF307, 0xF315, 0xF318], (placed State.reset w).CanFetch := by
  unfold State.CanFetch; decide

theorem test_witness_timer_words : next (placed State.reset 0xF307) = .ldVxDT 3 ∧
    next (placed State.reset 0xF315) = .ldDTVx 3 ∧ next (placed State.reset 0xF318) = .ldSTVx 3 := by decide

/-- `LoadProgramCopiesTheBytes`, `BootRunsTheFirstWord`: the longest program accepted and the shortest refused. -/
theorem test_witness_load : (List.replicate 3584 (0 : Byte)).length ≤ 3584 ∧
    3584 < (List.replicate 3585 (0 : Byte)).length ∧ (List.replicate 3582 (0 : Byte)).length ≤ 3582 := by
  simp only [List.length_replicate]; decide

theorem test_witness_UninitializedCoreRefuses : HostOp.step ≠ .init ∧ HostOp.load [] ≠ .init := by decide

theorem test_witness_JumpToSelf : (placed State.reset 0x1200).Finished 0x200 ∧ (0x200 : Addr).toNat ≤ 0xFFE := by
  unfold State.Finished; decide

end Sys2Proof.Tests
end

/-! ## The parameter of `ADD I,Vx` (R6, R161) -/

section
namespace Sys2Proof.Machine

/-- The rows of a flag function: one for every sum from 0 to 0x10FE and every old `VF`, the domain of R6. -/
def flagRows (g : Nat → Byte → Byte) : List (Nat × Byte × Byte) :=
  (List.range 0x10FF ×ˢ (List.finRange 256).map BitVec.ofFin).map fun p => (p.1, p.2, g p.1 p.2)

theorem mem_flagRows {g : Nat → Byte → Byte} {sum : Nat} {old v : Byte} :
    (sum, old, v) ∈ flagRows g ↔ sum ≤ 0x10FE ∧ v = g sum old := by
  have hold : old ∈ (List.finRange 256).map BitVec.ofFin :=
    List.mem_map.mpr ⟨old.toFin, List.mem_finRange _, rfl⟩
  constructor
  · intro hmem
    obtain ⟨⟨_, _⟩, hdom, hrow⟩ := List.mem_map.mp hmem
    cases hrow
    exact ⟨Nat.le_of_lt_succ (List.mem_range.mp (List.mem_product.mp hdom).1), rfl⟩
  · rintro ⟨hsum, rfl⟩
    exact List.mem_map.mpr
      ⟨(sum, old), List.mem_product.mpr ⟨List.mem_range.mpr (Nat.lt_succ_of_le hsum), hold⟩, rfl⟩

/-- A table answers with the flag of its row for the sum and the old `VF`, where no other row disagrees on it. -/
theorem addIFlagValue_table {rows : List (Nat × Byte × Byte)} {sum : Nat} {old v : Byte}
    (hmem : (sum, old, v) ∈ rows) (huniq : ∀ v', (sum, old, v') ∈ rows → v' = v) :
    addIFlagValue (.table rows) sum old = v := by
  rw [addIFlagValue]
  split
  case h_1 r hfind =>
    obtain ⟨sum', old', v'⟩ := r
    obtain ⟨rfl, rfl⟩ : sum' = sum ∧ old' = old := by simpa using List.find?_some hfind
    exact huniq v' (List.mem_of_find?_eq_some hfind)
  case h_2 hnone =>
    simpa using List.find?_eq_none.mp hnone _ hmem

/-- Settles O40: the table of a function's rows on R6's domain is the configuration that names it. -/
theorem everyAddIndexFlagHasAConfiguration : Obligations.EveryAddIndexFlagHasAConfiguration := by
  intro g
  refine ⟨.table (flagRows g), fun sum old hsum => addIFlagValue_table ?_ ?_⟩
  · exact mem_flagRows.mpr ⟨hsum, rfl⟩
  · exact fun v' hrow => (mem_flagRows.mp hrow).2

end Sys2Proof.Machine
end

/-! ## What a successful instruction has done (R104) -/

section
namespace Sys2Proof.Machine

open Sys2Proof.Claims

variable {s t : State}

/-! One inversion for each instruction that can stop or that chooses between two successes. -/

theorem execRet_next (h : execRet s = .next t) : ∃ hsp, t = (s.pop hsp).setPc (s.top hsp) := by
  unfold execRet at h
  split at h
  · cases h; exact ⟨‹_›, rfl⟩
  · cases h

theorem execCall_next {nnn : Addr} (h : execCall nnn s = .next t) :
    ∃ hsp, t = (s.push s.pc hsp).setPc (addrWord nnn) := by
  unfold execCall at h
  split at h
  · cases h; exact ⟨‹_›, rfl⟩
  · cases h

theorem withKeyIndex_next {b : Byte} {k : Key → Outcome} (h : withKeyIndex b k = .next t) :
    ∃ j : Key, j.val = b.toNat ∧ k j = .next t := by
  obtain ⟨j, hj, hk⟩ | ⟨-, hk⟩ := withKeyIndex_eq b k
  · exact ⟨j, hj, hk ▸ h⟩
  · rw [hk] at h; cases h

theorem execSkp_next {x : Reg} (h : execSkp x s = .next t) :
    ∃ j : Key, j.val = (s.reg x).toNat ∧ t = s.skipIf (s.keyDown j) := by
  obtain ⟨j, hj, hk⟩ := withKeyIndex_next h
  cases hk; exact ⟨j, hj, rfl⟩

theorem execSknp_next {x : Reg} (h : execSknp x s = .next t) :
    ∃ j : Key, j.val = (s.reg x).toNat ∧ t = s.skipIf (!s.keyDown j) := by
  obtain ⟨j, hj, hk⟩ := withKeyIndex_next h
  cases hk; exact ⟨j, hj, rfl⟩

theorem execKey_next {x : Reg} (h : execKey x s = .next t) :
    (∃ k, s.keyDown k = true ∧ t = s.setReg x (keyValue s.config.keyStoreIndex k)) ∨
      ((∀ k, s.keyDown k = false) ∧ t = s.setPc (s.pc - 2)) := by
  unfold execKey at h
  split at h <;> cases h
  case h_1 k hk => exact .inl ⟨k, ((s.leastKey_eq_some_iff k).mp hk).1, rfl⟩
  case h_2 hk => exact .inr ⟨s.leastKey_eq_none_iff.mp hk, rfl⟩

/-- The state `DRW` leaves: the sprite is on the screen and `VF` holds the collision (R181). -/
def State.drawn (s : State) (x0 y0 rows : Nat) : State :=
  (s.blit x0 y0 rows).setReg Reg.vF (boolByte (s.collides x0 y0 rows))

theorem execDrw_next {x y : Reg} {n : Nibble} (h : execDrw x y n s = .next t) :
    t = s.drawn (originX s x) (originY s y) (visibleRows n (originY s y)) := by
  unfold execDrw drawAt at h
  dsimp only at h
  split at h
  · cases h; rfl
  · cases (checkAddress_next_iff.mp h).2; rfl

theorem execBtd_next {x : Reg} (h : execBtd x s = .next t) :
    s.i.toNat + 2 ≤ 0xFFF ∧ t = s.writeBytes s.i.toNat (decimalDigits (s.reg x)) := by
  obtain ⟨hle, ht⟩ := checkAddress_next_iff.mp h
  cases ht; exact ⟨hle, rfl⟩

theorem execStMem_next {x : Reg} (h : execStMem x s = .next t) :
    s.i.toNat + x.val ≤ 0xFFF ∧ t = s.writeBytes s.i.toNat (s.regsUpTo x) := by
  obtain ⟨hle, ht⟩ := checkAddress_next_iff.mp h
  cases ht; exact ⟨hle, rfl⟩

theorem execLdMem_next {x : Reg} (h : execLdMem x s = .next t) :
    s.i.toNat + x.val ≤ 0xFFF ∧ t = s.loadRegs x s.i.toNat := by
  obtain ⟨hle, ht⟩ := checkAddress_next_iff.mp h
  cases ht; exact ⟨hle, rfl⟩

/-! ## What each instruction leaves unchanged -/

/-- The parts of the state, beside the general registers, that an instruction may write; a skip, a jump and a stalled
`KEY` write the already advanced program counter. -/
def writtenParts : Instr → List Part
  | .cls | .drw _ _ _ => [.screen]
  | .ret | .call _ => [.pc, .stack]
  | .jmp _ | .jmpV0 _ | .seImm _ _ | .sneImm _ _ | .seReg _ _ | .sneReg _ _ | .skp _ | .sknp _ | .key _ => [.pc]
  | .ldI _ | .addI _ | .ldF _ => [.index]
  | .rnd _ _ => [.draws]
  | .ldDTVx _ => [.delay]
  | .ldSTVx _ => [.sound]
  | .btd _ | .stMem _ => [.memory]
  | .sys _ | .nop8 _ _ _ | .nopE _ _ | .nopF _ _ | .ldImm _ _ | .addImm _ _ | .mov _ _ | .orReg _ _ => []
  | .andReg _ _ | .xorReg _ _ | .addReg _ _ | .subReg _ _ | .shr _ _ | .subn _ _ | .shl _ _ => []
  | .ldVxDT _ | .ldMem _ => []

/-- Two changes one after the other, with different frames. -/
theorem Frame.append {s t u : State} {regs regs' : List Reg} {free free' : List Part} (h : Frame s t regs free)
    (h' : Frame t u regs' free') : Frame s u (regs ++ regs') (free ++ free') :=
  (h.mono (fun _ => List.mem_append_left _) fun _ => List.mem_append_left _).trans
    (h'.mono (fun _ => List.mem_append_right _) fun _ => List.mem_append_right _)

/-- The flag written first and then a result: the shape of the flag-writing arithmetic. -/
theorem frame_setReg_vF_setReg (s : State) (x : Reg) (f b : Byte) :
    Frame s ((s.setReg Reg.vF f).setReg x b) [x, 15] [] :=
  ((frame_setReg s Reg.vF f).append (frame_setReg _ x b)).mono (by simp [or_comm]) (by simp)

theorem exec_frame {i : Instr} (h : exec i s = .next t) : Frame s t (writtenRegs i) (writtenParts i) := by
  cases i with
  | cls => cases h; exact frame_clearFb s
  | ret =>
    obtain ⟨hsp, rfl⟩ := execRet_next h
    exact ((frame_pop s hsp).append (frame_setPc _ _)).mono (by simp [writtenRegs]) (by simp [writtenParts])
  | call nnn =>
    obtain ⟨hsp, rfl⟩ := execCall_next h
    exact ((frame_push s s.pc hsp).append (frame_setPc _ _)).mono (by simp [writtenRegs]) (by simp [writtenParts])
  | jmp | jmpV0 => cases h; exact frame_setPc s _
  | seImm | sneImm | seReg | sneReg => cases h; exact frame_skipIf s _
  | skp x => obtain ⟨j, -, rfl⟩ := execSkp_next h; exact frame_skipIf s _
  | sknp x => obtain ⟨j, -, rfl⟩ := execSknp_next h; exact frame_skipIf s _
  | key x =>
    obtain ⟨k, -, rfl⟩ | ⟨-, rfl⟩ := execKey_next h
    · exact (frame_setReg s x _).mono (by simp [writtenRegs]) (by simp)
    · exact (frame_setPc s _).mono (by simp) (by simp [writtenParts])
  | sys | nop8 | nopE | nopF => cases h; exact Frame.refl s
  | ldImm | addImm | mov | orReg | andReg | xorReg | ldVxDT => cases h; exact frame_setReg s _ _
  | addReg | subReg | subn | shr | shl => cases h; exact frame_setReg_vF_setReg s _ _ _
  | rnd x nn => cases h; exact (frame_takeDraw s).append (frame_setReg _ x _)
  | drw x y n =>
    cases execDrw_next h
    exact ((frame_blit s _ _ _).append (frame_setReg _ _ _))
  | ldI | ldF => cases h; exact frame_setI s _
  | addI => cases h; exact (frame_setReg s _ _).append (frame_setI _ _)
  | ldDTVx => cases h; exact frame_setDt s _
  | ldSTVx => cases h; exact frame_setSt s _
  | btd => obtain ⟨-, rfl⟩ := execBtd_next h; exact frame_writeBytes s _ _
  | stMem => obtain ⟨-, rfl⟩ := execStMem_next h; exact frame_writeBytes s _ _
  | ldMem => obtain ⟨-, rfl⟩ := execLdMem_next h; exact frame_loadRegs s _ _

/-- A successful step in terms of the instruction it executes. -/
theorem step_next_exec (h : step s = .next t) :
    s.CanFetch ∧ ∃ u, exec (next s) s.advance = .next u ∧ t = u.tickTimers :=
  step_next_iff.mp h

/-- What a step leaves unchanged: the instruction's frame, the advance of the program counter and the timer phase. -/
theorem step_frame (h : step s = .next t) :
    Frame s t (writtenRegs (next s)) (.pc :: .delay :: .sound :: writtenParts (next s)) := by
  obtain ⟨-, u, hu, rfl⟩ := step_next_exec h
  have hadvance : Frame s s.advance [] [.pc] := frame_setPc s _
  exact ((hadvance.append (exec_frame hu)).append (frame_tickTimers u)).mono (by simp) fun p hp => by
    simp only [List.mem_append, List.mem_cons] at hp ⊢
    tauto

/-- Settles O21, from the frame of the step. -/
theorem stepWritesOnlyDestinationRegisters : Obligations.StepWritesOnlyDestinationRegisters :=
  fun _ _ h => (step_frame h).regs

end Sys2Proof.Machine
end

/-! ## The program counter and the limits of the state (R24, R44) -/

section
namespace Sys2Proof.Machine

open Sys2Proof.Claims

variable {s t : State}

/-! The program counter after the advance; where a fetch was possible no sum of it wraps. -/

theorem advance_pc_toNat (hs : s.CanFetch) : s.advance.pc.toNat = s.pc.toNat + 2 := by
  unfold State.CanFetch at hs
  rw [State.advance_pc, BitVec.toNat_add]
  simp; omega

theorem skipIf_advance_pc_toNat (hs : s.CanFetch) {c : Bool} {p : Prop} [Decidable p] (hc : c = true ↔ p) :
    (s.advance.skipIf c).pc.toNat = if p then s.pc.toNat + 4 else s.pc.toNat + 2 := by
  have hadvance := advance_pc_toNat hs
  unfold State.CanFetch at hs
  simp only [State.skipIf_pc, hc]
  split
  · rw [BitVec.toNat_add, hadvance]; simp; omega
  · exact hadvance

theorem addrWord_toNat (nnn : Addr) : (addrWord nnn).toNat = nnn.toNat := by
  have := nnn.isLt
  simp [addrWord]; omega

theorem offsetTarget_toNat (s : State) (nnn : Addr) : (offsetTarget s nnn).toNat = nnn.toNat + (s.reg 0).toNat := by
  have := nnn.isLt
  have := (s.reg 0).isLt
  rw [offsetTarget, BitVec.toNat_add, addrWord_toNat]
  simp; omega

theorem stack_getD (s : State) (k : Nat) (hk : k < 16) : s.stack.toList.getD k 0 = s.stack[k] := by
  rw [List.getD_eq_getElem _ _ (by simpa using hk), Vector.getElem_toList]

/-- The one key of an index, in the form in which R24's table asks for it. -/
theorem exists_key_of_index {j : Key} {n : Nat} (hj : j.val = n) (down : Bool) :
    (∃ k : Key, k.val = n ∧ s.keyDown k = down) ↔ s.keyDown j = down :=
  ⟨fun ⟨_, hk, hdown⟩ => Fin.ext (hk.trans hj.symm) ▸ hdown, fun hdown => ⟨j, hj, hdown⟩⟩

/-- An instruction that has no part in the program counter leaves it advanced. -/
theorem exec_pc_of_not_written {i : Instr} (hs : s.CanFetch) (h : exec i s.advance = .next t)
    (hi : .pc ∉ writtenParts i) : t.pc.toNat = s.pc.toNat + 2 := by
  rw [(exec_frame h).pc hi, advance_pc_toNat hs]

/-- R24's table, for the instruction on the advanced state. -/
theorem exec_pc {i : Instr} (hs : s.CanFetch) (h : exec i s.advance = .next t) : t.pc.toNat = pcAfter i s := by
  cases i with
  | seImm | sneImm | seReg | sneReg => cases h; exact skipIf_advance_pc_toNat hs decide_eq_true_iff
  | skp x =>
    obtain ⟨j, hj, rfl⟩ := execSkp_next h
    exact skipIf_advance_pc_toNat hs (exists_key_of_index hj _).symm
  | sknp x =>
    obtain ⟨j, hj, rfl⟩ := execSknp_next h
    exact skipIf_advance_pc_toNat hs (Bool.not_eq_true' _ ▸ (exists_key_of_index hj _).symm)
  | jmp nnn => cases h; exact addrWord_toNat nnn
  | call nnn => obtain ⟨_, rfl⟩ := execCall_next h; exact addrWord_toNat nnn
  | ret =>
    obtain ⟨hsp, rfl⟩ := execRet_next h
    rw [pcAfter, stack_getD _ _ (by omega)]; rfl
  | jmpV0 nnn => cases h; exact offsetTarget_toNat _ nnn
  | key x =>
    obtain ⟨k, hk, rfl⟩ | ⟨hup, rfl⟩ := execKey_next h
    · have hpressed : ∃ k, s.keyDown k = true := ⟨k, hk⟩
      simpa [pcAfter, hpressed] using advance_pc_toNat hs
    · simp only [State.advance_keyDown] at hup
      simp [pcAfter, hup]
  | _ => exact exec_pc_of_not_written hs h (by simp [writtenParts])

theorem step_pc (h : step s = .next t) : t.pc.toNat = pcAfter (next s) s := by
  obtain ⟨hs, u, hu, rfl⟩ := step_next_exec h
  rw [State.tickTimers_pc]
  exact exec_pc hs hu

/-- `CALL` pushes the address of the instruction after it (R127). -/
theorem step_call_pushes {nnn : Addr} (h : step s = .next t) (hi : next s = .call nnn) (hsp : s.sp.val < 16) :
    t.stack[s.sp.val].toNat = s.pc.toNat + 2 := by
  obtain ⟨hs, u, hu, rfl⟩ := step_next_exec h
  rw [hi] at hu
  obtain ⟨_, rfl⟩ := execCall_next hu
  rw [← advance_pc_toNat hs]
  simp [State.push_stack_getElem]

/-- Settles O8, from the program counter that each instruction leaves. -/
theorem programCounterAfterEachInstruction : Obligations.ProgramCounterAfterEachInstruction := by
  refine ⟨fun s t => step_pc, fun s t nnn h hi => step_call_pushes h hi, ?_⟩
  intro s f h t r hp
  rw [perform, h] at hp
  cases hp; rfl

/-! Each of the limits of R44. -/

theorem pcAfter_le (hs : s.CanFetch) (hl : s.Legal) (i : Instr) : pcAfter i s ≤ 0x10FE := by
  unfold State.CanFetch at hs
  cases i with
  | jmp nnn | call nnn => have := nnn.isLt; simp only [pcAfter]; omega
  | jmpV0 nnn =>
    have := nnn.isLt
    have := (s.reg 0).isLt
    simp only [pcAfter]; omega
  | ret =>
    have hslot := hl.stack ⟨s.sp.val - 1, by omega⟩
    rw [pcAfter, stack_getD _ _ (by omega)]; exact hslot.trans (by decide)
  | seImm | sneImm | seReg | sneReg | skp | sknp | key => simp only [pcAfter]; split <;> omega
  | _ => simp only [pcAfter]; omega

theorem glyphAddr_toNat_le (b : Byte) : (glyphAddr b).toNat ≤ 0xFFF := by
  have hdigit : (b &&& 0xF).toNat ≤ 0xF := by rw [BitVec.toNat_and]; exact Nat.and_le_right
  rw [glyphAddr, BitVec.toNat_ofNat]
  exact (Nat.mod_le _ _).trans (by rw [Config.fontBase]; omega)

theorem maskIndex_toNat_le (sum : Nat) : (maskIndex sum).toNat ≤ 0xFFF := by
  simp only [maskIndex, BitVec.toNat_ofNat]; omega

theorem exec_index_le {i : Instr} (h : exec i s = .next t) (hs : s.i.toNat ≤ 0xFFF) : t.i.toNat ≤ 0xFFF := by
  cases i with
  | ldI nnn => cases h; have := nnn.isLt; rw [State.setI_i, addrWord_toNat]; omega
  | ldF x => cases h; exact glyphAddr_toNat_le _
  | addI x => cases h; exact maskIndex_toNat_le _
  | _ => rwa [(exec_frame h).index (by simp [writtenParts])]

theorem exec_stack_le {i : Instr} (h : exec i s = .next t) (hpc : s.pc.toNat ≤ 0x1000)
    (hs : ∀ k : Fin 16, s.stack[k.val].toNat ≤ 0x1000) : ∀ k : Fin 16, t.stack[k.val].toNat ≤ 0x1000 := by
  intro k
  cases i with
  | call nnn =>
    obtain ⟨hsp, rfl⟩ := execCall_next h
    simp only [State.setPc_stack, State.push_stack_getElem]
    split
    · exact hpc
    · exact hs k
  | ret => obtain ⟨hsp, rfl⟩ := execRet_next h; exact hs k
  | _ => simp only [(exec_frame h).stack (by simp [writtenParts]), hs k]

theorem step_legal (hl : s.Legal) (h : step s = .next t) : t.Legal := by
  have hpc := step_pc h
  obtain ⟨hs, u, hu, rfl⟩ := step_next_exec h
  have hadvance : s.advance.pc.toNat ≤ 0x1000 := by
    rw [advance_pc_toNat hs]; unfold State.CanFetch at hs; omega
  exact ⟨exec_index_le (t := u) hu hl.index, hpc.trans_le (pcAfter_le hs hl _),
    exec_stack_le (t := u) hu hadvance hl.stack⟩

/-- Settles O15: `I`, `pc` and the stack slots one by one. -/
theorem legalStatesStayLegal : Obligations.LegalStatesStayLegal := fun _ _ => step_legal

theorem resetWith_legal (c : Config) (d : Nat) : (State.resetWith c d).Legal :=
  ⟨by simp [State.resetWith], by simp [State.resetWith], by simp [State.resetWith]⟩

/-- Settles O16. -/
theorem resetIsLegal : Obligations.ResetIsLegal := ⟨resetWith_legal _ _, resetWith_legal⟩

end Sys2Proof.Machine
end

/-! ## Every operation of the host keeps the machine safe (R44, R238) -/

section
namespace Sys2Proof.Machine

open Sys2Proof.Claims

variable {s t : State}

/-! Canonical memory: only the two storing instructions touch memory, and both are checked to stay inside it. -/

theorem exec_memoryCanonical {i : Instr} (h : exec i s = .next t) (hs : s.MemoryCanonical) : t.MemoryCanonical := by
  cases i with
  | btd x =>
    obtain ⟨hle, rfl⟩ := execBtd_next h
    exact State.memoryCanonical_writeBytes hs _ (by simp [decimalDigits, Config.memSize]; omega)
  | stMem x =>
    obtain ⟨hle, rfl⟩ := execStMem_next h
    exact State.memoryCanonical_writeBytes hs _ (by simp [Config.memSize]; omega)
  | ldMem x => obtain ⟨-, rfl⟩ := execLdMem_next h; exact hs
  | drw x y n => cases execDrw_next h; simpa [State.MemoryCanonical, State.drawn] using hs
  | ret => obtain ⟨_, rfl⟩ := execRet_next h; exact hs
  | call nnn => obtain ⟨_, rfl⟩ := execCall_next h; exact hs
  | skp x => obtain ⟨_, -, rfl⟩ := execSkp_next h; simpa [State.MemoryCanonical] using hs
  | sknp x => obtain ⟨_, -, rfl⟩ := execSknp_next h; simpa [State.MemoryCanonical] using hs
  | seImm | sneImm | seReg | sneReg => cases h; simpa [State.MemoryCanonical] using hs
  | key x => obtain ⟨_, -, rfl⟩ | ⟨-, rfl⟩ := execKey_next h <;> exact hs
  | _ => cases h; exact hs

theorem step_memoryCanonical (hs : s.MemoryCanonical) (h : step s = .next t) : t.MemoryCanonical := by
  obtain ⟨-, u, hu, rfl⟩ := step_next_exec h
  exact exec_memoryCanonical (t := u) hu hs

theorem resetWith_memoryCanonical (c : Config) (d : Nat) : (State.resetWith c d).MemoryCanonical :=
  Memory.wf_nil c.fontData

/-- Settles O18: reset lists nothing. -/
theorem resetMemoryIsCanonical : Obligations.ResetMemoryIsCanonical :=
  ⟨resetWith_memoryCanonical _ _, resetWith_memoryCanonical⟩

/-! The invariant of a core in the hands of a host. -/

/-- A state the machine of a configuration can be in: legal (R44), its memory canonical, the configuration its own. -/
structure State.Safe (c : Config) (s : State) : Prop where
  legal : s.Legal
  canonical : s.MemoryCanonical
  config : s.config = c

/-- A session of the core of a configuration: not initialised yet, or in a safe state. -/
def Session.Safe (c : Config) : Session → Prop
  | .uninitialized c' => c' = c
  | .running s => s.Safe c

theorem resetWith_safe (c : Config) (d : Nat) : (State.resetWith c d).Safe c :=
  ⟨resetWith_legal c d, resetWith_memoryCanonical c d, rfl⟩

theorem setKey_safe {c : Config} (hs : s.Safe c) (k : Key) (down : Bool) : (s.setKey k down).Safe c :=
  ⟨⟨hs.legal.index, hs.legal.pc, hs.legal.stack⟩, hs.canonical, hs.config⟩

theorem step_safe {c : Config} (hs : s.Safe c) (h : step s = .next t) : t.Safe c :=
  ⟨step_legal hs.legal h, step_memoryCanonical hs.canonical h, (step_frame h).config.trans hs.config⟩

/-- The size check of `load_program` keeps the copy inside memory (R234). -/
theorem loadProgram_safe {c : Config} {bytes : List Byte} (hs : s.Safe c) (h : loadProgram bytes s = .next t) :
    t.Safe c := by
  unfold loadProgram at h
  split at h <;> cases h
  case isTrue hsize =>
    refine ⟨⟨?_, ?_, ?_⟩, ?_, ?_⟩
    · simpa using hs.legal.index
    · simpa using hs.legal.pc
    · simpa using hs.legal.stack
    · rw [Config.maxProg] at hsize
      exact State.memoryCanonical_writeBytes hs.canonical _ (by rw [Config.progBase, Config.memSize]; omega)
    · simpa using hs.config

/-- Whatever an operation answers, the host holds a safe state if every success is one: a fault changes nothing
(R208). -/
theorem settle_safe {c : Config} {o : Outcome} (hs : s.Safe c) (ho : ∀ t, o = .next t → t.Safe c) :
    ∃ t, (settle s o).1 = .running t ∧ t.Safe c := by
  cases o with
  | next t => exact ⟨t, rfl, ho t rfl⟩
  | fault f => exact ⟨s, rfl, hs⟩
  | refused r => exact ⟨s, rfl, hs⟩

theorem perform_running_safe {c : Config} (hs : s.Safe c) (op : HostOp) :
    ∃ t, (perform (.running s) op).1 = .running t ∧ t.Safe c := by
  cases op with
  | init => exact ⟨_, rfl, hs.config ▸ resetWith_safe s.config s.draws⟩
  | load bytes => exact settle_safe hs fun _ => loadProgram_safe hs
  | step => exact settle_safe hs fun _ => step_safe hs
  | writeKey k down => exact ⟨_, rfl, setKey_safe hs k down⟩
  | readView => exact ⟨s, rfl, hs⟩
  | readTone => exact ⟨s, rfl, hs⟩

theorem perform_safe {c : Config} {σ : Session} (hσ : σ.Safe c) (op : HostOp) : (perform σ op).1.Safe c := by
  cases σ with
  | running s =>
    obtain ⟨t, ht, hsafe⟩ := perform_running_safe hσ op
    rw [ht]; exact hsafe
  | uninitialized c' =>
    obtain rfl : c' = c := hσ
    cases op with
    | init => exact resetWith_safe c' 0
    | _ => rfl

theorem afterOps_safe (c : Config) (ops : List HostOp) : (afterOps c ops).Safe c :=
  List.foldlRecOn ops _ (motive := Session.Safe c) rfl fun _ hσ op _ => perform_safe hσ op

/-- Settles O20: safety is kept by every operation, and so by every sequence of them from a core never initialised. -/
theorem everySessionStaysLegal : Obligations.EverySessionStaysLegal := by
  constructor
  · intro s op hlegal hcanonical
    obtain ⟨t, ht, hsafe⟩ := perform_running_safe ⟨hlegal, hcanonical, rfl⟩ op
    exact ⟨t, ht, hsafe.legal, hsafe.canonical, hsafe.config⟩
  · intro c ops
    have hsafe := afterOps_safe c ops
    split
    case h_1 c' h => rw [h] at hsafe; exact hsafe
    case h_2 s h => rw [h] at hsafe; exact ⟨hsafe.legal, hsafe.canonical, hsafe.config⟩

end Sys2Proof.Machine
end

/-! ## Inputs that a step does not read (R109) -/

section
namespace Sys2Proof.Machine

open Sys2Proof.Claims

/-- The state with its two inputs changed: the draw counter by `g`, the keys by `f`. -/
def State.mapInputs (g : Nat → Nat) (f : Vector Bool 16 → Vector Bool 16) (s : State) : State :=
  { s with draws := g s.draws, keys := f s.keys }

variable (g : Nat → Nat) (f : Vector Bool 16 → Vector Bool 16) (s : State)

/-! What reads or writes neither input commutes with the change. -/

@[simp] theorem mapInputs_reg (x : Reg) : (s.mapInputs g f).reg x = s.reg x := rfl
@[simp] theorem mapInputs_i : (s.mapInputs g f).i = s.i := rfl
@[simp] theorem mapInputs_fb : (s.mapInputs g f).fb = s.fb := rfl
@[simp] theorem mapInputs_readByte (a : Nat) : (s.mapInputs g f).readByte a = s.readByte a := rfl
@[simp] theorem mapInputs_regsUpTo (x : Reg) : (s.mapInputs g f).regsUpTo x = s.regsUpTo x := rfl
@[simp] theorem mapInputs_effAddr (k : Nat) : effAddr (s.mapInputs g f) k = effAddr s k := rfl

@[simp] theorem mapInputs_setReg (x : Reg) (b : Byte) :
    (s.mapInputs g f).setReg x b = (s.setReg x b).mapInputs g f := rfl

@[simp] theorem mapInputs_loadRegs (x : Reg) (a : Nat) :
    (s.mapInputs g f).loadRegs x a = (s.loadRegs x a).mapInputs g f := rfl

@[simp] theorem mapInputs_skipIf (c : Bool) : (s.mapInputs g f).skipIf c = (s.skipIf c).mapInputs g f := by
  cases c <;> rfl

@[simp] theorem mapInputs_writeBytes (a : Nat) (bs : List Byte) :
    (s.mapInputs g f).writeBytes a bs = (s.writeBytes a bs).mapInputs g f := by
  induction bs generalizing s a with
  | nil => rfl
  | cons x xs ih => exact ih (s.writeByte a x) (a + 1)

@[simp] theorem mapInputs_spriteMask (x0 y0 rows y : Nat) :
    (s.mapInputs g f).spriteMask x0 y0 rows y = s.spriteMask x0 y0 rows y := by
  simp [State.spriteMask]

@[simp] theorem mapInputs_collides (x0 y0 rows : Nat) :
    (s.mapInputs g f).collides x0 y0 rows = s.collides x0 y0 rows := by
  simp [State.collides]

@[simp] theorem mapInputs_blit (x0 y0 rows : Nat) :
    (s.mapInputs g f).blit x0 y0 rows = (s.blit x0 y0 rows).mapInputs g f := by
  simp only [State.blit, mapInputs_fb, mapInputs_spriteMask]; rfl

/-! The change passes through what an operation can answer. -/

@[simp] theorem mapState_next (m : State → State) : mapState m (.next s) = .next (m s) := rfl

theorem mapState_checkAddress (m : State → State) (a : Nat) (o : Outcome) :
    mapState m (checkAddress a o) = checkAddress a (mapState m o) := by
  unfold checkAddress; split <;> rfl

theorem mapState_withKeyIndex (m : State → State) (b : Byte) (k : Key → Outcome) :
    mapState m (withKeyIndex b k) = withKeyIndex b fun j => mapState m (k j) := by
  unfold withKeyIndex; split <;> rfl

theorem mapState_thenTick (o : Outcome) :
    mapState (State.mapInputs g f) (thenTick o) = thenTick (mapState (State.mapInputs g f) o) := by
  cases o <;> rfl

theorem drawAt_mapInputs (x0 y0 : Nat) (n : Nibble) :
    drawAt x0 y0 n (s.mapInputs g f) = mapState (State.mapInputs g f) (drawAt x0 y0 n s) := by
  unfold drawAt
  dsimp only
  split <;> simp [mapState_checkAddress]

theorem execRet_mapInputs : execRet (s.mapInputs g f) = mapState (State.mapInputs g f) (execRet s) := by
  unfold execRet
  rw [apply_dite (mapState (State.mapInputs g f))]; rfl

theorem execCall_mapInputs (nnn : Addr) :
    execCall nnn (s.mapInputs g f) = mapState (State.mapInputs g f) (execCall nnn s) := by
  unfold execCall
  rw [apply_dite (mapState (State.mapInputs g f))]; rfl

theorem execKey_mapInputs (x : Reg) :
    execKey x (s.mapInputs g id) = mapState (State.mapInputs g id) (execKey x s) := by
  have hleast : (s.mapInputs g id).leastKey = s.leastKey := rfl
  unfold execKey
  rw [hleast]
  split <;> rfl

/-- Of the instructions only `RND` reads the draw counter, and only `SKP`, `SKNP` and `KEY` read the keys. -/
theorem exec_mapInputs {i : Instr} (hg : g = id ∨ ∀ x nn, i ≠ .rnd x nn)
    (hf : f = id ∨ ∀ x, i ≠ .skp x ∧ i ≠ .sknp x ∧ i ≠ .key x) :
    exec i (s.mapInputs g f) = mapState (State.mapInputs g f) (exec i s) := by
  cases i with
  | rnd x nn =>
    obtain rfl : g = id := hg.resolve_right fun hn => hn x nn rfl
    rfl
  | skp x =>
    obtain rfl : f = id := hf.resolve_right fun hn => (hn x).1 rfl
    simp only [exec, execSkp, mapState_withKeyIndex, mapState_next, mapInputs_skipIf]; rfl
  | sknp x =>
    obtain rfl : f = id := hf.resolve_right fun hn => (hn x).2.1 rfl
    simp only [exec, execSknp, mapState_withKeyIndex, mapState_next, mapInputs_skipIf]; rfl
  | key x =>
    obtain rfl : f = id := hf.resolve_right fun hn => (hn x).2.2 rfl
    exact execKey_mapInputs g s x
  | ret => exact execRet_mapInputs g f s
  | call nnn => exact execCall_mapInputs g f s nnn
  | seImm | sneImm | seReg | sneReg => exact congrArg _ (mapInputs_skipIf g f s _)
  | drw x y n => exact drawAt_mapInputs g f s (originX s x) (originY s y) n
  | btd x => simp [exec, execBtd, mapState_checkAddress]
  | stMem x => simp [exec, execStMem, mapState_checkAddress]
  | ldMem x => simp [exec, execLdMem, mapState_checkAddress]
  | _ => rfl

theorem step_mapInputs (hg : g = id ∨ ∀ x nn, next s ≠ .rnd x nn)
    (hf : f = id ∨ ∀ x, next s ≠ .skp x ∧ next s ≠ .sknp x ∧ next s ≠ .key x) :
    step (s.mapInputs g f) = mapState (State.mapInputs g f) (step s) := by
  have hexec : exec (decodeWord s.opcode) (s.advance.mapInputs g f) = _ := exec_mapInputs g f s.advance hg hf
  unfold step cycle
  rw [mapState_checkAddress, mapState_thenTick, ← hexec]; rfl

/-- Settles O12: either input alone may change where it is not read. -/
theorem stepIgnoresInputsItDoesNotRead : Obligations.StepIgnoresInputsItDoesNotRead :=
  ⟨fun s d hrnd => step_mapInputs (fun _ => d) id s (.inr hrnd) (.inl rfl),
    fun s ks hkeys => step_mapInputs id (fun _ => ks) s (.inl rfl) (.inr hkeys)⟩

end Sys2Proof.Machine
end

/-! ## The flag and the special state after a step (R26 to R40) -/

section
namespace Sys2Proof.Machine

open Sys2Proof.Claims

variable {s t : State}

/-! The flag computations on numbers (R26, R155). -/

theorem carryFlag_toNat (a b : Byte) : (carryFlag a b).toNat = flag (255 < a.toNat + b.toNat) := by
  simp [carryFlag, flag]

theorem noBorrowFlag_toNat (a b : Byte) : (noBorrowFlag a b).toNat = flag (b.toNat < a.toNat) := by
  simp [noBorrowFlag, flag]

theorem lowBitFlag_toNat (a : Byte) : (lowBitFlag a).toNat = a.toNat % 2 := by
  rw [lowBitFlag, BitVec.toNat_and]
  exact Nat.and_one_is_mod _

theorem highBitFlag_toNat (a : Byte) : (highBitFlag a).toNat = a.toNat / 128 := by
  have hlt := a.isLt
  rw [highBitFlag, BitVec.toNat_and, BitVec.toNat_ushiftRight, Nat.shiftRight_eq_div_pow]
  exact (Nat.and_one_is_mod _).trans (by omega)

/-- `VF` after a step that writes a flag and then a result elsewhere. -/
theorem flag_of_result_elsewhere (s : State) {x : Reg} (hx : x ≠ 15) {f b : Byte} {n : Nat} (hf : f.toNat = n) :
    (((s.setReg Reg.vF f).setReg x b).tickTimers.reg 15).toNat = n := by
  rw [State.tickTimers_reg, State.reg_setReg_ne _ hx.symm, State.reg_setReg_same, hf]

/-- The sprite in the words of the statements is the mask the blit draws (R181, R182). -/
theorem spriteAt_iff (s : State) (x y : Reg) (n : Nibble) (px py : Nat) :
    spriteAt s x y n px py ↔
      py < 32 ∧ (s.spriteMask (originX s x) (originY s y) (visibleRows n (originY s y)) py).getMsbD px = true := by
  rw [State.spriteMask_getMsbD, spriteAt, rowsDrawn, visibleRows, originX, originY]
  have hy : (s.reg y).toNat % 32 < 32 := Nat.mod_lt _ (by decide)
  generalize (s.reg x).toNat % 64 = x0
  generalize (s.reg y).toNat % 32 = y0 at *
  constructor
  · rintro ⟨r, c, hr, hc, rfl, hpx, rfl, hbit⟩
    rw [Nat.add_sub_cancel_left, Nat.add_sub_cancel_left]
    exact ⟨by omega, ⟨by omega, by omega⟩, by omega, by omega, by omega, hbit⟩
  · rintro ⟨-, ⟨hle, hlt⟩, hpx, hxle, hxlt, hbit⟩
    exact ⟨py - y0, px - x0, by omega, by omega, by omega, by omega, by omega, hbit⟩

/-- `VF` after `DRW`: the collision of the sprite with the screen before it (R181). -/
theorem drawn_reg_vF (s : State) (x y : Reg) (n : Nibble) :
    (s.drawn (originX s x) (originY s y) (visibleRows n (originY s y))).reg 15 =
      boolByte (s.collides (originX s x) (originY s y) (visibleRows n (originY s y))) :=
  State.reg_setReg_same _ _ _

theorem collides_sprite_iff (s : State) (x y : Reg) (n : Nibble) :
    s.collides (originX s x) (originY s y) (visibleRows n (originY s y)) = true ↔
      ∃ px py, spriteAt s x y n px py ∧ s.pixel px py = true := by
  simp only [State.collides_iff, spriteAt_iff, and_assoc]

theorem execDrw_collision {x y : Reg} {n : Nibble} (h : execDrw x y n s = .next t)
    (hcol : ∃ px py, spriteAt s x y n px py ∧ s.pixel px py = true) : t.reg 15 = 1 := by
  rw [execDrw_next h, drawn_reg_vF, (collides_sprite_iff s x y n).mpr hcol]; rfl

theorem execDrw_noCollision {x y : Reg} {n : Nibble} (h : execDrw x y n s = .next t)
    (hno : ∀ px py, spriteAt s x y n px py → s.pixel px py = false) : t.reg 15 = 0 := by
  have hfree : s.collides (originX s x) (originY s y) (visibleRows n (originY s y)) = false := by
    rw [← Bool.not_eq_true, collides_sprite_iff]
    rintro ⟨px, py, hsprite, hon⟩
    simp [hno px py hsprite] at hon
  rw [execDrw_next h, drawn_reg_vF, hfree]; rfl

/-- Settles O22: the instructions with a flag by their own writes, the others by the frame of the step. -/
theorem flagAfterEachInstruction : Obligations.FlagAfterEachInstruction := by
  intro s t h
  have hframe := (step_frame h).regs
  obtain ⟨-, u, hu, rfl⟩ := step_next_exec h
  split
  case h_1 x y hi =>
    rw [hi] at hu; cases hu
    exact fun hx => flag_of_result_elsewhere _ hx (carryFlag_toNat _ _)
  case h_2 x y hi =>
    rw [hi] at hu; cases hu
    exact fun hx => flag_of_result_elsewhere _ hx (noBorrowFlag_toNat _ _)
  case h_3 x y hi =>
    rw [hi] at hu; cases hu
    exact fun hx => flag_of_result_elsewhere _ hx (noBorrowFlag_toNat _ _)
  case h_4 x y hi =>
    rw [hi] at hu; cases hu
    exact fun hx => flag_of_result_elsewhere _ hx (lowBitFlag_toNat _)
  case h_5 x y hi =>
    rw [hi] at hu; cases hu
    exact fun hx => flag_of_result_elsewhere _ hx (highBitFlag_toNat _)
  case h_6 x y n hi =>
    rw [hi] at hu
    exact ⟨execDrw_collision (s := s.advance) (t := u) hu, execDrw_noCollision (s := s.advance) (t := u) hu⟩
  case h_7 x hi =>
    rw [hi] at hu; cases hu
    exact State.reg_setReg_same _ _ _
  case h_8 => exact hframe 15

/-! The special state. -/

/-- `RET` leaves the popped slot as it was (R35). -/
theorem exec_stack_of_ne_call {i : Instr} (h : exec i s = .next t) (hi : ∀ nnn, i ≠ .call nnn) :
    t.stack = s.stack := by
  cases i with
  | call nnn => exact absurd rfl (hi nnn)
  | ret => obtain ⟨_, rfl⟩ := execRet_next h; rfl
  | _ => exact (exec_frame h).stack (by simp [writtenParts])

theorem index_not_mem_writtenParts {i : Instr} (hi : ∀ x nnn, i ≠ .ldI nnn ∧ i ≠ .addI x ∧ i ≠ .ldF x) :
    .index ∉ writtenParts i := by
  cases i with
  | ldI nnn => exact absurd rfl (hi 0 nnn).1
  | addI x => exact absurd rfl (hi x 0).2.1
  | ldF x => exact absurd rfl (hi x 0).2.2
  | _ => simp [writtenParts]

theorem stack_not_mem_writtenParts {i : Instr} (hcall : ∀ nnn, i ≠ .call nnn) (hret : i ≠ .ret) :
    .stack ∉ writtenParts i := by
  cases i with
  | call nnn => exact absurd rfl (hcall nnn)
  | ret => exact absurd rfl hret
  | _ => simp [writtenParts]

theorem screen_not_mem_writtenParts {i : Instr} (hcls : i ≠ .cls) (hdrw : ∀ x y n, i ≠ .drw x y n) :
    .screen ∉ writtenParts i := by
  cases i with
  | cls => exact absurd rfl hcls
  | drw x y n => exact absurd rfl (hdrw x y n)
  | _ => simp [writtenParts]

theorem draws_not_mem_writtenParts {i : Instr} (hi : ∀ x nn, i ≠ .rnd x nn) : .draws ∉ writtenParts i := by
  cases i with
  | rnd x nn => exact absurd rfl (hi x nn)
  | _ => simp [writtenParts]

/-- Settles O23: what an instruction has no part in by its frame, the stack and the draw by their writers. -/
theorem specialStateChangesOnlyByItsWriters : Obligations.SpecialStateChangesOnlyByItsWriters := by
  intro s t h
  obtain ⟨-, u, hu, rfl⟩ := step_next_exec h
  have hframe := exec_frame hu
  refine ⟨?index, ?stack, ?call, ?ret, ?screen, ?draws, ?rnd, hframe.keys, hframe.config⟩
  case index => exact fun hi => hframe.index (index_not_mem_writtenParts hi)
  case stack =>
    exact fun hcall => ⟨exec_stack_of_ne_call (s := s.advance) (t := u) hu hcall,
      fun hret => hframe.sp (stack_not_mem_writtenParts hcall hret)⟩
  case call =>
    intro nnn hi
    rw [hi] at hu
    obtain ⟨hsp, rfl⟩ := execCall_next hu
    exact ⟨rfl, fun k hk => (s.advance.push_stack_getElem _ hsp k.val k.isLt).trans (if_neg hk)⟩
  case ret =>
    intro hi
    rw [hi] at hu
    obtain ⟨hsp, rfl⟩ := execRet_next hu
    exact Nat.sub_add_cancel hsp
  case screen => exact fun hi px py => hframe.screen (screen_not_mem_writtenParts hi.1 hi.2) px py
  case draws => exact fun hi => hframe.draws (draws_not_mem_writtenParts hi)
  case rnd => intro x nn hi; rw [hi] at hu; cases hu; rfl

end Sys2Proof.Machine
end

/-! ## Single instructions that only move a value: `RND` and the timers (R151, R193 to R195) -/

section
namespace Sys2Proof.Machine

open Sys2Proof.Claims

variable {s t : State}

/-- A successful instruction on the advanced state makes the step succeed, with one tick after it. -/
theorem step_of_exec {i : Instr} (hs : s.CanFetch) (hi : next s = i) (h : exec i s.advance = .next t) :
    step s = .next t.tickTimers := by
  subst hi
  exact step_next_iff.mpr ⟨hs, t, h, rfl⟩

theorem decodeWord_of_inFamilyByte {k : Byte} {w : Word} (hw : inFamilyByte k w) : decodeWord w = decodeF w := by
  simp [decodeWord, hw.1]

/-- Settles O37. -/
theorem rndStoresAMaskedDraw : Obligations.RndStoresAMaskedDraw := by
  refine ⟨fun w hw => by simp [decodeWord, show family w = 0xC from hw], fun s x nn => ?_⟩
  refine ⟨s.takeDraw.setReg x (Config.randomByte s.draws &&& nn), rfl,
    (frame_takeDraw s).append (frame_setReg _ x _), rfl, fun k => ?_, ?_, ?_⟩
  · rw [State.reg_setReg_same, BitVec.getLsbD_and]
  · rintro rfl; rw [State.reg_setReg_same]; exact BitVec.and_zero
  · rintro rfl; rw [State.reg_setReg_same]; exact BitVec.and_allOnes

theorem toneActive_iff (s : State) : s.toneActive = true ↔ s.st.toNat ≠ 0 := by
  simp [State.toneActive, BitVec.toNat_eq]

/-- Settles O52: each move as an instruction, and as a step with the tick after it. -/
theorem timerMoves : Obligations.TimerMoves := by
  refine ⟨?decDT, ?decSetDT, ?decSetST, ?ldVxDT, ?ldDTVx, ?ldSTVx, ?stepVxDT, ?stepDTVx, ?stepSTVx⟩
  case decDT | decSetDT | decSetST =>
    intro w hw
    simp [decodeWord_of_inFamilyByte hw, decodeF, hw.2]
  case ldVxDT => exact fun s x => ⟨s.setReg x s.dt, rfl, State.reg_setReg_same _ _ _, frame_setReg s x _⟩
  case ldDTVx => exact fun s x => ⟨s.setDt (s.reg x), rfl, rfl, frame_setDt s _⟩
  case ldSTVx => exact fun s x => ⟨s.setSt (s.reg x), rfl, rfl, frame_setSt s _⟩
  case stepVxDT => exact fun s x hs hi => ⟨_, step_of_exec hs hi rfl, State.reg_setReg_same _ _ _, decrement_toNat _⟩
  case stepDTVx => exact fun s x hs hi => ⟨_, step_of_exec hs hi rfl, decrement_toNat _⟩
  case stepSTVx =>
    intro s x hs hi
    have hst : (decrement (s.reg x)).toNat = (s.reg x).toNat - 1 := decrement_toNat _
    refine ⟨_, step_of_exec hs hi rfl, hst, (toneActive_iff _).trans ?_⟩
    change (decrement (s.reg x)).toNat ≠ 0 ↔ _
    omega

end Sys2Proof.Machine
end

/-! ## The host's operations (R31, R37, R45, R184, R230) -/

section
namespace Sys2Proof.Machine

theorem resetWith_reg (c : Config) (d : Nat) (x : Reg) : (State.resetWith c d).reg x = 0 := by
  simp [State.reg, State.resetWith]

theorem resetWith_keyDown (c : Config) (d : Nat) (k : Key) : (State.resetWith c d).keyDown k = false := by
  simp [State.keyDown, State.resetWith]

theorem resetWith_pixel (c : Config) (d px py : Nat) : (State.resetWith c d).pixel px py = false := by
  simp [State.pixel, State.resetWith]

theorem resetWith_stack (c : Config) (d : Nat) (k : Fin 16) : (State.resetWith c d).stack[k.val] = 0 := by
  simp [State.resetWith]

/-- Settles O53: the fields one by one, memory by what an unlisted address reads as. -/
theorem resetValues : Obligations.ResetValues := fun c d =>
  ⟨resetWith_reg c d, rfl, rfl, rfl, resetWith_stack c d, rfl, rfl, rfl, resetWith_pixel c d, resetWith_keyDown c d,
    fun k => unlisted_font c.fontData k.isLt, fun _ ha => unlisted_of_not_font c.fontData ha, rfl⟩

/-- Settles O54: the reset does not look at the state but for its parameters. -/
theorem initializeGivesTheResetState : Obligations.InitializeGivesTheResetState :=
  ⟨fun _ => rfl, fun _ => rfl, rfl⟩

/-- Settles O58: the host's write by the key file, a step by its frame. -/
theorem onlyTheHostWritesKeys : Obligations.OnlyTheHostWritesKeys := by
  refine ⟨fun s k down => ⟨s.setKey k down, rfl, ?_, fun j hj => ?_, rfl⟩, fun s t h k => ?_⟩
  · rw [State.keyDown_setKey, if_pos rfl]
  · rw [State.keyDown_setKey, if_neg hj]
  · rw [State.keyDown, (step_frame h).keys, State.keyDown]

theorem view_length (s : State) : s.view.length = 2048 := by simp [State.view]

theorem view_getD (s : State) {px py : Nat} (hx : px < 64) (hy : py < 32) :
    s.view.getD (py * 64 + px) 0 = if s.pixel px py then Config.onColor else Config.offColor := by
  have hcol : (py * 64 + px) % 64 = px := by omega
  have hrow : (py * 64 + px) / 64 = py := by omega
  rw [List.getD_eq_getElem _ _ (by rw [view_length]; omega)]
  simp [State.view, hcol, hrow]

/-- Settles O59. -/
theorem hostReadsTheScreenAndTheTone : Obligations.HostReadsTheScreenAndTheTone := by
  refine ⟨fun s => ⟨rfl, view_length s⟩, fun s px py => view_getD s, fun s => ?_⟩
  have htone : s.toneActive = decide (s.st.toNat ≠ 0) := by rw [Bool.eq_iff_iff, toneActive_iff, decide_eq_true_iff]
  rw [perform, htone]

end Sys2Proof.Machine
end

/-! ## Memory: its canonical form, and what stores and loads leave in it (R50 to R66, R233, R236) -/

section
namespace Sys2Proof.Machine

open Sys2Proof.Claims

variable {s : State}

/-- Settles O17: only the two storing instructions touch memory, and their range check keeps them inside it. -/
theorem memoryStaysCanonical : Obligations.MemoryStaysCanonical := fun _ _ => step_memoryCanonical

/-! Canonical memory is determined by its reads. -/

theorem Memory.wfFrom_cons_iff {font : Vector Byte 80} {lo a : Nat} {x : Byte} {m : Memory} :
    Memory.wfFrom font lo ((a, x) :: m) = true ↔
      lo ≤ a ∧ a < Config.memSize ∧ x ≠ unlisted font a ∧ Memory.wfFrom font (a + 1) m = true := by
  simp only [Memory.wfFrom, Bool.and_eq_true, decide_eq_true_eq, and_assoc]

/-- Below the first address that may be listed, memory reads as unlisted. -/
theorem Memory.read_of_lt_wfFrom {font : Vector Byte 80} {lo a : Nat} {m : Memory}
    (hm : Memory.wfFrom font lo m = true) (ha : a < lo) : Memory.read font m a = unlisted font a := by
  induction m generalizing lo with
  | nil => rfl
  | cons e m ih =>
    obtain ⟨b, y⟩ := e
    obtain ⟨hlo, -, -, htail⟩ := Memory.wfFrom_cons_iff.mp hm
    rw [Memory.read, if_neg (by omega)]
    exact ih htail (by omega)

theorem Memory.read_head (font : Vector Byte 80) (a : Nat) (x : Byte) (m : Memory) :
    Memory.read font ((a, x) :: m) a = x := if_pos rfl

/-- A memory that reads at a listed address as the entry there lists something at or below that address. -/
theorem Memory.le_of_read_eq_head {font : Vector Byte 80} {lo lo' a : Nat} {x : Byte} {m m' : Memory}
    (hm : Memory.wfFrom font lo ((a, x) :: m) = true) (hm' : Memory.wfFrom font lo' m' = true)
    (hread : Memory.read font ((a, x) :: m) a = Memory.read font m' a) : lo' ≤ a := by
  obtain ⟨-, -, hx, -⟩ := Memory.wfFrom_cons_iff.mp hm
  by_contra hlt
  rw [Memory.read_head, Memory.read_of_lt_wfFrom hm' (by omega)] at hread
  exact hx hread

/-- Two lists with the same first entry that read alike have tails that read alike. -/
theorem Memory.read_tail_eq {font : Vector Byte 80} {a : Nat} {x : Byte} {m m' : Memory}
    (hm : Memory.wfFrom font (a + 1) m = true) (hm' : Memory.wfFrom font (a + 1) m' = true)
    (hread : ∀ b, Memory.read font ((a, x) :: m) b = Memory.read font ((a, x) :: m') b) (b : Nat) :
    Memory.read font m b = Memory.read font m' b := by
  by_cases hb : b = a
  · rw [Memory.read_of_lt_wfFrom hm (by omega), Memory.read_of_lt_wfFrom hm' (by omega)]
  · simpa only [Memory.read, if_neg hb] using hread b

theorem Memory.eq_of_wfFrom_of_read_eq {font : Vector Byte 80} {lo : Nat} {m m' : Memory}
    (hm : Memory.wfFrom font lo m = true) (hm' : Memory.wfFrom font lo m' = true)
    (hread : ∀ a, Memory.read font m a = Memory.read font m' a) : m = m' := by
  induction m generalizing lo m' with
  | nil =>
    cases m' with
    | nil => rfl
    | cons e m' =>
      obtain ⟨b, y⟩ := e
      have : b + 1 ≤ b := Memory.le_of_read_eq_head (m' := []) hm' rfl (hread b).symm
      omega
  | cons e m ih =>
    obtain ⟨a, x⟩ := e
    cases m' with
    | nil =>
      have : a + 1 ≤ a := Memory.le_of_read_eq_head (m' := []) hm rfl (hread a)
      omega
    | cons e' m' =>
      obtain ⟨b, y⟩ := e'
      obtain ⟨-, ha, hx, htail⟩ := Memory.wfFrom_cons_iff.mp hm
      obtain ⟨-, hb, hy, htail'⟩ := Memory.wfFrom_cons_iff.mp hm'
      have hba : b ≤ a :=
        Memory.le_of_read_eq_head hm (Memory.wfFrom_cons_iff.mpr ⟨le_rfl, hb, hy, htail'⟩) (hread a)
      have hab : a ≤ b :=
        Memory.le_of_read_eq_head hm' (Memory.wfFrom_cons_iff.mpr ⟨le_rfl, ha, hx, htail⟩) (hread b).symm
      obtain rfl : a = b := Nat.le_antisymm hab hba
      obtain rfl : x = y := by simpa only [Memory.read_head] using hread a
      rw [ih htail htail' (Memory.read_tail_eq htail htail' hread)]

/-- Settles O19, by induction on the two lists: the first address at which memory is listed can be read off. -/
theorem canonicalMemoryIsUnique : Obligations.CanonicalMemoryIsUnique :=
  fun _ _ _ => Memory.eq_of_wfFrom_of_read_eq

/-! What a step stores. -/

theorem memory_not_mem_writtenParts {i : Instr} (hbtd : ∀ x, i ≠ .btd x) (hst : ∀ x, i ≠ .stMem x) :
    .memory ∉ writtenParts i := by
  cases i with
  | btd x => exact absurd rfl (hbtd x)
  | stMem x => exact absurd rfl (hst x)
  | _ => simp [writtenParts]

theorem decimalDigits_length (b : Byte) : (decimalDigits b).length = 3 := rfl

/-- Settles O24: the two storing instructions by the range they write, the others by the frame of the step. -/
theorem memoryChangesOnlyWhereStored : Obligations.MemoryChangesOnlyWhereStored := by
  intro s t h a
  obtain ⟨-, u, hu, rfl⟩ := step_next_exec h
  split
  case h_1 x hi =>
    rw [hi] at hu
    obtain ⟨-, rfl⟩ := execBtd_next hu
    intro ha
    exact State.readByte_writeBytes_outside _ _ _ _ (by rw [decimalDigits_length]; exact ha)
  case h_2 x hi =>
    rw [hi] at hu
    obtain ⟨-, rfl⟩ := execStMem_next hu
    intro ha
    exact State.readByte_writeBytes_outside _ _ _ _ (by rw [State.regsUpTo_length]; exact ha)
  case h_3 hbtd hst => exact (exec_frame hu).memory (memory_not_mem_writtenParts hbtd hst) a

/-- The registers a block store has stored read back from memory (R164). -/
theorem readByte_writeBytes_regsUpTo (s : State) (a : Nat) {x r : Reg} (hr : r ≤ x) :
    (s.writeBytes a (s.regsUpTo x)).readByte (a + r.val) = s.reg r := by
  have hlen : r.val < (s.regsUpTo x).length := by rw [State.regsUpTo_length]; exact Nat.lt_succ_of_le hr
  rw [State.readByte_writeBytes_inside _ _ _ _ hlen, State.regsUpTo_getElem]

theorem execStMem_of_le {x : Reg} (h : s.i.toNat + x.val ≤ 0xFFF) :
    execStMem x s = .next (s.writeBytes s.i.toNat (s.regsUpTo x)) :=
  checkAddress_of_le h _

theorem opcode_toNat (s : State) :
    s.opcode.toNat = (s.readByte s.pc.toNat).toNat * 256 + (s.readByte (s.pc.toNat + 1)).toNat :=
  wordOfBytes_toNat _ _

/-- Settles O45: the stored block starts where the advanced program counter points. -/
theorem storesAreSeenByTheNextFetch : Obligations.StoresAreSeenByTheNextFetch := by
  intro s x hs hi hx hindex hrange
  refine ⟨_, step_of_exec hs hi (execStMem_of_le hrange), ?_⟩
  have hpc : s.advance.pc.toNat = s.i.toNat := (advance_pc_toNat hs).trans hindex.symm
  have hstored (r : Reg) (hr : r ≤ x) := readByte_writeBytes_regsUpTo s.advance s.i.toNat hr
  have h0 := hstored 0 (Fin.zero_le x)
  have h1 := hstored 1 hx
  rw [opcode_toNat, State.tickTimers_readByte, State.tickTimers_readByte, State.tickTimers_pc, State.writeBytes_pc, hpc]
  exact congrArg₂ (fun b0 b1 : Byte => b0.toNat * 256 + b1.toNat) h0 h1

/-! Booting. -/

theorem loadProgram_of_le {bytes : List Byte} (h : bytes.length ≤ 3584) (s : State) :
    loadProgram bytes s = .next (s.writeBytes 0x200 bytes) :=
  if_pos h

theorem afterOps_init_load (c : Config) {bytes : List Byte} (h : bytes.length ≤ 3584) :
    afterOps c [.init, .load bytes] = .running ((State.resetWith c 0).writeBytes 0x200 bytes) :=
  congrArg (fun o => (settle _ o).1) (loadProgram_of_le h _)

/-- The program counter of the reset state points at the loaded program's first word (R45, R53). -/
theorem opcode_resetWith_writeBytes (c : Config) (d : Nat) (b0 b1 : Byte) (rest : List Byte) :
    ((State.resetWith c d).writeBytes 0x200 (b0 :: b1 :: rest)).opcode = wordOfBytes b0 b1 := by
  have hpc : ((State.resetWith c d).writeBytes 0x200 (b0 :: b1 :: rest)).pc = 0x200 := State.writeBytes_pc _ _ _
  have h0 := State.readByte_writeBytes_inside (State.resetWith c d) (b0 :: b1 :: rest) 0x200 0 (by simp)
  have h1 := State.readByte_writeBytes_inside (State.resetWith c d) (b0 :: b1 :: rest) 0x200 1 (by simp)
  rw [State.opcode, hpc]
  exact congrArg₂ wordOfBytes h0 h1

theorem resetWith_readByte_of_not_font (c : Config) (d : Nat) {a : Nat} (h : a < 0x050 ∨ 0x09F < a) :
    (State.resetWith c d).readByte a = 0 :=
  unlisted_of_not_font c.fontData h

/-- Settles O56. -/
theorem bootRunsTheFirstWord : Obligations.BootRunsTheFirstWord := by
  intro c b0 b1 rest hlen
  refine ⟨_, afterOps_init_load c (by simp only [List.length_cons]; omega), ?fetch, ?word, ?outside⟩
  case fetch => rw [State.CanFetch, State.writeBytes_pc]; exact (by decide : 0x200 ≤ 0xFFE)
  case word => exact congrArg decodeWord (opcode_resetWith_writeBytes c 0 b0 b1 rest)
  case outside =>
    intro a hwindow hfont
    rw [State.readByte_writeBytes_outside _ _ _ _ (by simp only [List.length_cons]; omega),
      resetWith_readByte_of_not_font c 0 hfont]

end Sys2Proof.Machine
end

/-! ## Decoding and encoding (R70 to R91) -/

section
namespace Sys2Proof.Machine

variable {w : Word}

/-! A word put together again from its fields. -/

theorem wordA_fields {f : Nibble} (hf : family w = f) : wordA f (fieldNNN w) = w := by
  subst hf
  apply BitVec.eq_of_toNat_eq
  rw [wordA_toNat, family_toNat, fieldNNN_toNat]; omega

theorem wordXI_fields {f : Nibble} {k : Byte} (hf : family w = f) (hk : fieldNN w = k) :
    wordXI f (fieldX w) k = w := by
  subst hf hk
  apply BitVec.eq_of_toNat_eq
  rw [wordXI_toNat, family_toNat, fieldX_val, fieldNN_toNat]; omega

theorem wordXYN_fields {f n : Nibble} (hf : family w = f) (hn : fieldN w = n) :
    wordXYN f (fieldX w) (fieldY w) n = w := by
  subst hf hn
  apply BitVec.eq_of_toNat_eq
  rw [wordXYN_toNat, family_toNat, fieldX_val, fieldY_val, fieldN_toNat]; omega

theorem fieldNNN_lowNibble (w : Word) : (fieldNNN w).extractLsb' 0 4 = fieldN w := by
  apply BitVec.eq_of_toNat_eq
  rw [BitVec.extractLsb'_toNat, Nat.shiftRight_zero, fieldNNN_toNat, fieldN_toNat]; omega

/-! The families whose decoding ignores bits or looks at a sub-opcode (R73, R77). -/

theorem decodeWord_of_family0 (hf : family w = 0x0) : decodeWord w = decode0 w := by simp [decodeWord, hf]

theorem decodeWord_of_family5 (hf : family w = 0x5) : decodeWord w = .seReg (fieldX w) (fieldY w) := by
  simp [decodeWord, hf]

theorem decodeWord_of_family8 (hf : family w = 0x8) : decodeWord w = decode8 w := by simp [decodeWord, hf]

theorem decodeWord_of_family9 (hf : family w = 0x9) : decodeWord w = .sneReg (fieldX w) (fieldY w) := by
  simp [decodeWord, hf]

theorem decodeWord_of_familyE (hf : family w = 0xE) : decodeWord w = decodeE w := by simp [decodeWord, hf]

theorem decodeWord_of_familyF (hf : family w = 0xF) : decodeWord w = decodeF w := by simp [decodeWord, hf]

/-! The unassigned sub-opcodes as the numbers the dispatch compares, and the catch-all each of them decodes to
(R78 to R81, R85). -/

theorem unassigned0_iff {n : Nibble} : unassigned0 n = true ↔ n.toNat ≠ 0x0 ∧ n.toNat ≠ 0xE := by
  revert n; decide

theorem unassigned8_iff {n : Nibble} : unassigned8 n = true ↔ n.toNat ≠ 0x0 ∧ n.toNat ≠ 0x1 ∧ n.toNat ≠ 0x2 ∧
    n.toNat ≠ 0x3 ∧ n.toNat ≠ 0x4 ∧ n.toNat ≠ 0x5 ∧ n.toNat ≠ 0x6 ∧ n.toNat ≠ 0x7 ∧ n.toNat ≠ 0xE := by
  revert n; decide

theorem unassignedE_iff {n : Nibble} : unassignedE n = true ↔ n.toNat ≠ 0x1 ∧ n.toNat ≠ 0xE := by
  revert n; decide

theorem unassignedF_iff {k : Byte} : unassignedF k = true ↔ k.toNat ≠ 0x07 ∧ k.toNat ≠ 0x0A ∧ k.toNat ≠ 0x15 ∧
    k.toNat ≠ 0x18 ∧ k.toNat ≠ 0x1E ∧ k.toNat ≠ 0x29 ∧ k.toNat ≠ 0x33 ∧ k.toNat ≠ 0x55 ∧ k.toNat ≠ 0x65 := by
  simp [unassignedF, BitVec.toNat_eq]

theorem decode0_of_unassigned (h : unassigned0 (fieldN w) = true) : decode0 w = .sys (fieldNNN w) := by
  simp [decode0, unassigned0_iff.mp h]

theorem decode8_of_unassigned (h : unassigned8 (fieldN w) = true) :
    decode8 w = .nop8 (fieldX w) (fieldY w) (fieldN w) := by
  simp [decode8, unassigned8_iff.mp h]

theorem decodeE_of_unassigned (h : unassignedE (fieldN w) = true) : decodeE w = .nopE (fieldX w) (fieldN w) := by
  simp [decodeE, unassignedE_iff.mp h]

theorem decodeF_of_unassigned (h : unassignedF (fieldNN w) = true) : decodeF w = .nopF (fieldX w) (fieldNN w) := by
  simp [decodeF, unassignedF_iff.mp h]

/-! Every decoded instruction is well-formed (R83, R86). -/

theorem decode0_wf (w : Word) : (decode0 w).WellFormed := by
  unfold decode0
  split
  case h_3 h0 hE => rw [Instr.WellFormed, Instr.wf, fieldNNN_lowNibble]; exact unassigned0_iff.mpr ⟨h0, hE⟩
  all_goals rfl

theorem decode8_wf (w : Word) : (decode8 w).WellFormed := by
  unfold decode8
  split
  case h_10 h0 h1 h2 h3 h4 h5 h6 h7 hE => exact unassigned8_iff.mpr ⟨h0, h1, h2, h3, h4, h5, h6, h7, hE⟩
  all_goals rfl

theorem decodeE_wf (w : Word) : (decodeE w).WellFormed := by
  unfold decodeE
  split
  case h_3 h1 hE => exact unassignedE_iff.mpr ⟨h1, hE⟩
  all_goals rfl

theorem decodeF_wf (w : Word) : (decodeF w).WellFormed := by
  unfold decodeF
  split
  case h_10 h07 h0A h15 h18 h1E h29 h33 h55 h65 =>
    exact unassignedF_iff.mpr ⟨h07, h0A, h15, h18, h1E, h29, h33, h55, h65⟩
  all_goals rfl

theorem decodeWord_wf (w : Word) : (decodeWord w).WellFormed := by
  unfold decodeWord
  split
  case h_1 => exact decode0_wf w
  case h_9 => exact decode8_wf w
  case h_15 => exact decodeE_wf w
  case h_16 => exact decodeF_wf w
  all_goals rfl

/-- Settles O2: every arm of the dispatch gives a well-formed instruction. -/
theorem everyOpcodeDecodes : Obligations.EveryOpcodeDecodes :=
  fun b0 b1 _ => ⟨decodeWord (wordOfBytes b0 b1), rfl, decodeWord_wf _⟩

/-! Decoding the canonical word of an instruction. -/

theorem decodeWord_encode {i : Instr} (hi : i.WellFormed) : decodeWord (encode i) = i := by
  cases i
  case sys nnn =>
    have h : unassigned0 (fieldN (wordA 0x0 nnn)) = true := by rw [fieldN_wordA]; exact hi
    rw [encode, decodeWord_of_family0 (family_wordA _ _), decode0_of_unassigned h, fieldNNN_wordA]
  case nop8 x y n =>
    have h : unassigned8 (fieldN (wordXYN 0x8 x y n)) = true := by rw [fieldN_wordXYN]; exact hi
    rw [encode, decodeWord_of_family8 (family_wordXYN _ _ _ _), decode8_of_unassigned h, fieldX_wordXYN,
      fieldY_wordXYN, fieldN_wordXYN]
  case nopE x n =>
    have h : unassignedE (fieldN (wordXYN 0xE x 0 n)) = true := by rw [fieldN_wordXYN]; exact hi
    rw [encode, decodeWord_of_familyE (family_wordXYN _ _ _ _), decodeE_of_unassigned h, fieldX_wordXYN, fieldN_wordXYN]
  case nopF x k =>
    have h : unassignedF (fieldNN (wordXI 0xF x k)) = true := by rw [fieldNN_wordXI]; exact hi
    rw [encode, decodeWord_of_familyF (family_wordXI _ _ _), decodeF_of_unassigned h, fieldX_wordXI, fieldNN_wordXI]
  case cls | ret => rfl
  all_goals simp [encode, decodeWord, decode8, decodeE, decodeF]

theorem decodeBytes_encodeBytes (i : Instr) (rest : List Byte) :
    decodeBytes (encodeBytes i ++ rest) = .ok (decodeWord (encode i), rest) := by
  rw [← wordOfBytes_highByte_lowByte (encode i)]
  simp [encodeBytes, decodeBytes]

/-- Settles O1: the two bytes make up the canonical word, whose fields the decoder reads back. -/
theorem decodeInvertsEncode : Obligations.DecodeInvertsEncode := by
  intro i hi rest
  rw [decodeBytes_encodeBytes, decodeWord_encode hi]

/-- Settles O5: ten fixed words, by evaluation. -/
theorem sampleWordsDecode : Obligations.SampleWordsDecode := by
  unfold Obligations.SampleWordsDecode
  decide

/-! Encoding what was decoded gives back the bits the decoder looked at (R73). -/

theorem encode_decode8 (hf : family w = 0x8) : encode (decode8 w) = w := by
  unfold decode8
  split
  case h_10 => exact wordXYN_fields hf rfl
  all_goals exact wordXYN_fields hf (BitVec.eq_of_toNat_eq ‹_›)

theorem encode_decodeF (hf : family w = 0xF) : encode (decodeF w) = w := by
  unfold decodeF
  split
  case h_10 => exact wordXI_fields hf rfl
  all_goals exact wordXI_fields hf (BitVec.eq_of_toNat_eq ‹_›)

theorem encode_decode0_of_unassigned (hf : family w = 0x0) (h : unassigned0 (fieldN w) = true) :
    encode (decode0 w) = w := by
  rw [decode0_of_unassigned h]
  exact wordA_fields hf

theorem encode_decode0_fields (w : Word) :
    family (encode (decode0 w)) = 0x0 ∧ fieldN (encode (decode0 w)) = fieldN w := by
  unfold decode0
  split
  case h_1 h | h_2 h => exact ⟨rfl, BitVec.eq_of_toNat_eq h.symm⟩
  case h_3 => exact ⟨family_wordA _ _, (fieldN_wordA _ _).trans (fieldNNN_lowNibble w)⟩

theorem encode_decodeE_fields (w : Word) : family (encode (decodeE w)) = 0xE ∧
    fieldX (encode (decodeE w)) = fieldX w ∧ fieldN (encode (decodeE w)) = fieldN w := by
  unfold decodeE
  split
  case h_1 h | h_2 h =>
    exact ⟨family_wordXI _ _ _, fieldX_wordXI _ _ _, (fieldN_wordXI _ _ _).trans (BitVec.eq_of_toNat_eq h.symm)⟩
  case h_3 => exact ⟨family_wordXYN _ _ _ _, fieldX_wordXYN _ _ _ _, fieldN_wordXYN _ _ _ _⟩

/-- In the families that ignore no bit (R73), encoding inverts decoding. -/
theorem encode_decodeWord (hf : family w ∉ [0x0#4, 0x5#4, 0x9#4, 0xE#4]) : encode (decodeWord w) = w := by
  simp only [List.mem_cons, List.not_mem_nil, or_false, not_or] at hf
  obtain ⟨h0, h5, h9, hE⟩ := hf
  unfold decodeWord
  split
  case h_1 h => exact absurd (BitVec.eq_of_toNat_eq h) h0
  case h_6 h => exact absurd (BitVec.eq_of_toNat_eq h) h5
  case h_10 h => exact absurd (BitVec.eq_of_toNat_eq h) h9
  case h_15 h => exact absurd (BitVec.eq_of_toNat_eq h) hE
  case h_2 h | h_3 h | h_11 h | h_12 h => exact wordA_fields (BitVec.eq_of_toNat_eq h)
  case h_4 h | h_5 h | h_7 h | h_8 h | h_13 h => exact wordXI_fields (BitVec.eq_of_toNat_eq h) rfl
  case h_14 h => exact wordXYN_fields (BitVec.eq_of_toNat_eq h) rfl
  case h_9 h => exact encode_decode8 (BitVec.eq_of_toNat_eq h)
  case h_16 =>
    have hlt := (family w).isLt
    simp only [imp_false] at *
    have hF : (family w).toNat = 15 := by omega
    exact encode_decodeF (BitVec.eq_of_toNat_eq hF)

theorem family_encode_decodeWord (w : Word) : family (encode (decodeWord w)) = family w := by
  by_cases hf : family w ∈ [0x0#4, 0x5#4, 0x9#4, 0xE#4]
  · simp only [List.mem_cons, List.not_mem_nil, or_false] at hf
    rcases hf with hf | hf | hf | hf
    · rw [decodeWord_of_family0 hf]; exact (encode_decode0_fields w).1.trans hf.symm
    · rw [decodeWord_of_family5 hf]; exact (family_wordXYN _ _ _ _).trans hf.symm
    · rw [decodeWord_of_family9 hf]; exact (family_wordXYN _ _ _ _).trans hf.symm
    · rw [decodeWord_of_familyE hf]; exact (encode_decodeE_fields w).1.trans hf.symm
  · rw [encode_decodeWord hf]

/-! The families that ignore bits (R73). -/

variable {w' : Word}

theorem fieldN_eq_of_decode0_eq (h : decode0 w = decode0 w') : fieldN w = fieldN w' := by
  rw [← (encode_decode0_fields w).2, h, (encode_decode0_fields w').2]

theorem decode0_eq_iff_of_assigned (hn : fieldN w = 0x0 ∨ fieldN w = 0xE) :
    decode0 w = decode0 w' ↔ fieldN w = fieldN w' := by
  refine ⟨fieldN_eq_of_decode0_eq, fun h => ?_⟩
  rcases hn with hn | hn
  · simp [decode0, ← h, hn]
  · simp [decode0, ← h, hn]

theorem eq_of_decode0_eq_of_unassigned (hf : family w = 0x0) (hf' : family w' = 0x0)
    (hn : unassigned0 (fieldN w) = true) (h : decode0 w = decode0 w') : w = w' := by
  have hn' : unassigned0 (fieldN w') = true := fieldN_eq_of_decode0_eq h ▸ hn
  rw [← encode_decode0_of_unassigned hf hn, h, encode_decode0_of_unassigned hf' hn']

theorem decodeE_eq_iff : decodeE w = decodeE w' ↔ fieldX w = fieldX w' ∧ fieldN w = fieldN w' := by
  constructor
  · intro h
    obtain ⟨-, hx, hn⟩ := encode_decodeE_fields w
    obtain ⟨-, hx', hn'⟩ := encode_decodeE_fields w'
    exact ⟨by rw [← hx, h, hx'], by rw [← hn, h, hn']⟩
  · rintro ⟨hx, hn⟩
    rw [decodeE, decodeE, hx, hn]

/-- Settles O4: what decoding depends on can be read off the canonical word of its result. -/
theorem decodeLooksAtTheBitsItShould : Obligations.DecodeLooksAtTheBitsItShould := by
  refine ⟨?families, ?skips, ?assigned0, ?sys, ?familyE, ?others, rfl, ?noop⟩
  case families =>
    intro w w' h
    rw [← family_encode_decodeWord w, h, family_encode_decodeWord]
  case skips =>
    rintro w w' hff (hf | hf)
    · rw [decodeWord_of_family5 hf, decodeWord_of_family5 (hff ▸ hf), Instr.seReg.injEq]
    · rw [decodeWord_of_family9 hf, decodeWord_of_family9 (hff ▸ hf), Instr.sneReg.injEq]
  case assigned0 =>
    intro w w' hf hf' hn
    rw [decodeWord_of_family0 hf, decodeWord_of_family0 hf', decode0_eq_iff_of_assigned hn]
  case sys =>
    intro w w' hf hf' h0 hE h
    rw [decodeWord_of_family0 hf, decodeWord_of_family0 hf'] at h
    exact eq_of_decode0_eq_of_unassigned hf hf' (by simpa [unassigned0] using ⟨h0, hE⟩) h
  case familyE =>
    intro w w' hf hf'
    rw [decodeWord_of_familyE hf, decodeWord_of_familyE hf', decodeE_eq_iff]
  case others =>
    intro w w' hff hf h
    rw [← encode_decodeWord hf, h, encode_decodeWord (hff ▸ hf)]
  case noop =>
    rintro w s (⟨hf, hn⟩ | ⟨hf, hn⟩ | ⟨hf, hn⟩ | ⟨hf, hk⟩)
    · rw [decodeWord_of_family0 hf, decode0_of_unassigned hn]; rfl
    · rw [decodeWord_of_family8 hf, decode8_of_unassigned hn]; rfl
    · rw [decodeWord_of_familyE hf, decodeE_of_unassigned hn]; rfl
    · rw [decodeWord_of_familyF hf, decodeF_of_unassigned hk]; rfl

/-! The test of a row of the opcode table, on the numbers the decoder dispatches on. -/

theorem and_maskFamily (w : Word) : w &&& 0xF000 = wordA (family w) 0 := by
  have hf : family (w &&& 0xF000) = family w := BitVec.extractLsb'_and.trans BitVec.and_allOnes
  have hn : fieldNNN (w &&& 0xF000) = 0 := BitVec.extractLsb'_and.trans BitVec.and_zero
  rw [← wordA_fields hf, hn]

theorem and_maskLow (w : Word) : w &&& 0xF00F = wordXYN (family w) 0 0 (fieldN w) := by
  have hf : family (w &&& 0xF00F) = family w := BitVec.extractLsb'_and.trans BitVec.and_allOnes
  have hn : fieldN (w &&& 0xF00F) = fieldN w := BitVec.extractLsb'_and.trans BitVec.and_allOnes
  have hx : fieldX (w &&& 0xF00F) = 0 := by simp [fieldX, BitVec.extractLsb'_and, Reg.ofNibble]
  have hy : fieldY (w &&& 0xF00F) = 0 := by simp [fieldY, BitVec.extractLsb'_and, Reg.ofNibble]
  rw [← wordXYN_fields hf hn, hx, hy]

theorem and_maskByte (w : Word) : w &&& 0xF0FF = wordXI (family w) 0 (fieldNN w) := by
  have hf : family (w &&& 0xF0FF) = family w := BitVec.extractLsb'_and.trans BitVec.and_allOnes
  have hk : fieldNN (w &&& 0xF0FF) = fieldNN w := BitVec.extractLsb'_and.trans BitVec.and_allOnes
  have hx : fieldX (w &&& 0xF0FF) = 0 := by simp [fieldX, BitVec.extractLsb'_and, Reg.ofNibble]
  rw [← wordXI_fields hf hk, hx]

theorem accepts_iff {r : OpcodeRow} : r.accepts w = true ↔ (w &&& r.mask).toNat = r.pattern.toNat := by
  rw [OpcodeRow.accepts, beq_iff_eq, BitVec.toNat_eq]

theorem accepts_of_maskFamily {r : OpcodeRow} (hm : r.mask = 0xF000) (hp : r.pattern.toNat % 4096 = 0) :
    r.accepts w = decide ((family w).toNat = r.pattern.toNat / 4096) := by
  rw [Bool.eq_iff_iff, accepts_iff, decide_eq_true_iff, hm, and_maskFamily, wordA_toNat]
  change _ + 0 = _ ↔ _
  omega

theorem accepts_of_maskLow {r : OpcodeRow} (hm : r.mask = 0xF00F) (hp : r.pattern.toNat / 16 % 256 = 0) :
    r.accepts w =
      decide ((family w).toNat = r.pattern.toNat / 4096 ∧ (fieldN w).toNat = r.pattern.toNat % 16) := by
  have hlt := (fieldN w).isLt
  rw [Bool.eq_iff_iff, accepts_iff, decide_eq_true_iff, hm, and_maskLow, wordXYN_toNat, Fin.val_zero]
  omega

theorem accepts_of_maskByte {r : OpcodeRow} (hm : r.mask = 0xF0FF) (hp : r.pattern.toNat / 256 % 16 = 0) :
    r.accepts w =
      decide ((family w).toNat = r.pattern.toNat / 4096 ∧ (fieldNN w).toNat = r.pattern.toNat % 256) := by
  have hlt := (fieldNN w).isLt
  rw [Bool.eq_iff_iff, accepts_iff, decide_eq_true_iff, hm, and_maskByte, wordXI_toNat, Fin.val_zero]
  omega

/-! The first accepting row stands among the rows of the word's own family (R83). -/

/-- The rows of the opcode table whose high nibble is `f`, in the table's order. -/
def rowsOf (f : Nat) : List OpcodeRow := opcodeTable.filter fun r => (family r.pattern).toNat = f

theorem family_of_accepts {r : OpcodeRow} (hr : r ∈ opcodeTable) (h : r.accepts w = true) :
    family r.pattern = family w := by
  have hmask : ∀ r ∈ opcodeTable, family r.mask = BitVec.allOnes 4 := by decide
  calc family r.pattern
    _ = family (w &&& r.mask) := congrArg family (beq_iff_eq.mp h).symm
    _ = family w &&& family r.mask := BitVec.extractLsb'_and
    _ = family w := by rw [hmask r hr, BitVec.and_allOnes]

theorem rowOf_of_family {f : Nat} {rows : List OpcodeRow} (hf : (family w).toNat = f)
    (hrows : rowsOf f = rows) : rowOf w = rows.find? (·.accepts w) := by
  rw [← hrows, rowsOf, List.find?_filter]
  refine List.find?_congr fun r hr => ?_
  rw [Bool.eq_iff_iff]
  simpa [← hf] using fun h => congrArg BitVec.toNat (family_of_accepts hr h)

theorem rowOf_of_onlyRow {f : Nat} {r : OpcodeRow} (hf : (family w).toNat = f)
    (hrows : rowsOf f = [r]) (hm : r.mask = 0xF000) (hp : r.pattern.toNat = f * 4096) : rowOf w = some r := by
  have haccepts : r.accepts w = true := by
    rw [accepts_of_maskFamily hm (by omega), decide_eq_true_iff]; omega
  rw [rowOf_of_family hf hrows]
  exact List.find?_cons_of_pos haccepts

theorem mnemonic_rowOf_family0 (hf : (family w).toNat = 0x0) :
    ∃ r, rowOf w = some r ∧ r.mnemonic = (decode0 w).mnemonic := by
  rw [rowOf_of_family (rows := rowsFamily0) hf (by decide), rowsFamily0, decode0]
  split
  case h_3 =>
    simp only [imp_false] at *
    simp [accepts_of_maskFamily, accepts_of_maskLow, Instr.mnemonic, *]
  all_goals simp [accepts_of_maskLow, Instr.mnemonic, *]

theorem mnemonic_rowOf_family8 (hf : (family w).toNat = 0x8) :
    ∃ r, rowOf w = some r ∧ r.mnemonic = (decode8 w).mnemonic := by
  rw [rowOf_of_family (rows := rowsFamily8) hf (by decide), rowsFamily8, decode8]
  split
  case h_10 =>
    simp only [imp_false] at *
    simp [accepts_of_maskFamily, accepts_of_maskLow, Instr.mnemonic, *]
  all_goals simp [accepts_of_maskLow, Instr.mnemonic, *]

theorem mnemonic_rowOf_familyE (hf : (family w).toNat = 0xE) :
    ∃ r, rowOf w = some r ∧ r.mnemonic = (decodeE w).mnemonic := by
  rw [rowOf_of_family (rows := rowsFamilyE) hf (by decide), rowsFamilyE, decodeE]
  split
  case h_3 =>
    simp only [imp_false] at *
    simp [accepts_of_maskFamily, accepts_of_maskLow, Instr.mnemonic, *]
  all_goals simp [accepts_of_maskLow, Instr.mnemonic, *]

theorem mnemonic_rowOf_familyF (hf : (family w).toNat = 0xF) :
    ∃ r, rowOf w = some r ∧ r.mnemonic = (decodeF w).mnemonic := by
  rw [rowOf_of_family (rows := rowsFamilyF) hf (by decide), rowsFamilyF, decodeF]
  split
  case h_10 =>
    simp only [imp_false] at *
    simp [accepts_of_maskFamily, accepts_of_maskByte, Instr.mnemonic, *]
  all_goals simp [accepts_of_maskByte, Instr.mnemonic, *]

theorem mnemonic_rowOf (w : Word) : ∃ r, rowOf w = some r ∧ r.mnemonic = (decodeWord w).mnemonic := by
  unfold decodeWord
  split
  case h_1 h => exact mnemonic_rowOf_family0 h
  case h_9 h => exact mnemonic_rowOf_family8 h
  case h_15 h => exact mnemonic_rowOf_familyE h
  case h_16 =>
    have hlt := (family w).isLt
    simp only [imp_false] at *
    exact mnemonic_rowOf_familyF (by omega)
  all_goals exact ⟨_, rowOf_of_onlyRow ‹_› rfl rfl rfl, rfl⟩

/-- Settles O3: within the word's family the rows are tried in the order of the dispatch's arms. -/
theorem decodeFollowsTheOpcodeTable : Obligations.DecodeFollowsTheOpcodeTable :=
  ⟨rfl, mnemonic_rowOf⟩

end Sys2Proof.Machine
end

/-! ## The step cycle: what a step runs, and what it can answer (R100 to R108) -/

section
namespace Sys2Proof.Machine

open Sys2Proof.Claims

variable {s t : State}

/-- Settles O6: the two bytes decode to the instruction of the opcode, and the timer phase takes the instruction's
answer as the statement lists it. -/
theorem stepRunsTheDecodedInstruction : Obligations.StepRunsTheDecodedInstruction := by
  intro s i hs _ hi
  obtain rfl : decodeWord s.opcode = i := congrArg Prod.fst (Except.ok.inj hi)
  rw [step_of_canFetch hs, State.advance]
  cases exec (decodeWord s.opcode) (s.setPc (s.pc + 2)) <;> rfl

/-- Settles O7. -/
theorem fetchIsBigEndianAndInRange : Obligations.FetchIsBigEndianAndInRange :=
  ⟨opcode_toNat, fun _ hpc => step_fault_iff.mpr (.inr ⟨hpc, rfl⟩)⟩

/-! Every operation of a step answers a next state or one of the step's own faults. -/

/-- What R108 allows a step to answer. -/
def NextOrStepFault (o : Outcome) : Prop :=
  (∃ t, o = .next t) ∨ ∃ f, o = .fault f ∧ 2 ≤ f.code ∧ f.code ≤ 5

theorem nextOrStepFault_next (t : State) : NextOrStepFault (.next t) := .inl ⟨t, rfl⟩

theorem nextOrStepFault_fault {f : Fault} (hf : 2 ≤ f.code ∧ f.code ≤ 5) : NextOrStepFault (.fault f) :=
  .inr ⟨f, rfl, hf⟩

theorem nextOrStepFault_checkAddress (a : Nat) {o : Outcome} (ho : NextOrStepFault o) :
    NextOrStepFault (checkAddress a o) := by
  unfold checkAddress
  split
  · exact ho
  · exact nextOrStepFault_fault (by simp [Fault.code])

theorem nextOrStepFault_withKeyIndex (b : Byte) {k : Key → Outcome} (hk : ∀ j, NextOrStepFault (k j)) :
    NextOrStepFault (withKeyIndex b k) := by
  obtain ⟨j, -, h⟩ | ⟨-, h⟩ := withKeyIndex_eq b k <;> rw [h]
  · exact hk j
  · exact nextOrStepFault_fault (by simp [Fault.code])

theorem nextOrStepFault_thenTick {o : Outcome} (ho : NextOrStepFault o) : NextOrStepFault (thenTick o) := by
  obtain ⟨t, rfl⟩ | ⟨f, rfl, hf⟩ := ho
  · exact nextOrStepFault_next t.tickTimers
  · exact nextOrStepFault_fault hf

theorem nextOrStepFault_drawAt (x0 y0 : Nat) (n : Nibble) (s : State) : NextOrStepFault (drawAt x0 y0 n s) := by
  unfold drawAt
  dsimp only
  split
  · exact nextOrStepFault_next _
  · exact nextOrStepFault_checkAddress _ (nextOrStepFault_next _)

theorem nextOrStepFault_execSkp (x : Reg) (s : State) : NextOrStepFault (execSkp x s) :=
  nextOrStepFault_withKeyIndex _ fun _ => nextOrStepFault_next _

theorem nextOrStepFault_execSknp (x : Reg) (s : State) : NextOrStepFault (execSknp x s) :=
  nextOrStepFault_withKeyIndex _ fun _ => nextOrStepFault_next _

theorem nextOrStepFault_execKey (x : Reg) (s : State) : NextOrStepFault (execKey x s) := by
  unfold execKey
  split <;> exact nextOrStepFault_next _

/-- Only the stack, the key index and the address range can stop an instruction, and none is refused. -/
theorem nextOrStepFault_exec (i : Instr) (s : State) : NextOrStepFault (exec i s) := by
  cases i with
  | ret =>
    by_cases hsp : 0 < s.sp.val
    · exact .inl ⟨_, dif_pos hsp⟩
    · exact .inr ⟨.stackUnderflow, dif_neg hsp, by decide⟩
  | call nnn =>
    by_cases hsp : s.sp.val < 16
    · exact .inl ⟨_, dif_pos hsp⟩
    · exact .inr ⟨.stackOverflow, dif_neg hsp, by decide⟩
  | skp x => exact nextOrStepFault_execSkp x s
  | sknp x => exact nextOrStepFault_execSknp x s
  | key x => exact nextOrStepFault_execKey x s
  | drw x y n => exact nextOrStepFault_drawAt _ _ n s
  | btd x | stMem x | ldMem x => exact nextOrStepFault_checkAddress _ (nextOrStepFault_next _)
  | _ => exact nextOrStepFault_next _

theorem nextOrStepFault_step (s : State) : NextOrStepFault (step s) :=
  nextOrStepFault_checkAddress _ (nextOrStepFault_thenTick (nextOrStepFault_exec _ _))

/-- Settles O11: fetch, instruction and timer phase one after the other. -/
theorem stepEndsInANextStateOrAStepFault : Obligations.StepEndsInANextStateOrAStepFault :=
  ⟨nextOrStepFault_step, fun _ => rfl⟩

end Sys2Proof.Machine
end

/-! ## A fault changes nothing and comes again (R106, R208, R210) -/

section
namespace Sys2Proof.Machine

variable {s : State} {f : Fault}

theorem loadProgram_of_gt {bytes : List Byte} (h : 3584 < bytes.length) (s : State) :
    loadProgram bytes s = .fault (.programTooLarge bytes.length) :=
  if_neg (Nat.not_le.mpr h)

/-- A key skip faults by its register alone, whatever the keys are (R190, R191). -/
theorem withKeyIndex_fault_iff {b : Byte} {m : Key → State} :
    withKeyIndex b (fun k => .next (m k)) = .fault f ↔ 15 < b.toNat ∧ f = .keyIndexOutOfRange b := by
  obtain ⟨j, hj, h⟩ | ⟨hb, h⟩ := withKeyIndex_eq b fun k => .next (m k) <;> rw [h]
  · have hle : ¬ 15 < b.toNat := by omega
    simp [hle]
  · simp [hb, eq_comm]

theorem execSkp_fault_iff {x : Reg} :
    execSkp x s = .fault f ↔ 15 < (s.reg x).toNat ∧ f = .keyIndexOutOfRange (s.reg x) :=
  withKeyIndex_fault_iff

theorem execSknp_fault_iff {x : Reg} :
    execSknp x s = .fault f ↔ 15 < (s.reg x).toNat ∧ f = .keyIndexOutOfRange (s.reg x) :=
  withKeyIndex_fault_iff

theorem execKey_ne_fault (x : Reg) (s : State) (f : Fault) : execKey x s ≠ .fault f := by
  unfold execKey
  split <;> simp

/-- An instruction's fault does not depend on the keys: of those that read them, the skips fault by their register
and `KEY` never. -/
theorem exec_fault_of_keys_changed {i : Instr} (h : exec i s = .fault f) (g : Vector Bool 16 → Vector Bool 16) :
    exec i (s.mapInputs id g) = .fault f := by
  cases i with
  | skp x => exact execSkp_fault_iff.mpr ((execSkp_fault_iff (s := s)).mp h)
  | sknp x => exact execSknp_fault_iff.mpr ((execSknp_fault_iff (s := s)).mp h)
  | key x => exact absurd h (execKey_ne_fault x s f)
  | _ => rw [exec_mapInputs id g s (.inl rfl) (.inr (by simp)), h]; rfl

theorem step_fault_of_keys_changed (h : step s = .fault f) (g : Vector Bool 16 → Vector Bool 16) :
    step (s.mapInputs id g) = .fault f := by
  obtain ⟨hs, hexec⟩ | hfetch := step_fault_iff.mp h
  · exact step_fault_iff.mpr (.inl ⟨hs, exec_fault_of_keys_changed hexec g⟩)
  · exact step_fault_iff.mpr (.inr hfetch)

/-- Settles O14: the session keeps the state of before, and what raised the fault is still there. -/
theorem faultsChangeNothing : Obligations.FaultsChangeNothing := by
  refine ⟨fun s f h => ?step, fun s bytes h => ?load, fun s f ks h => step_fault_of_keys_changed h fun _ => ks⟩
  case step => exact congrArg (settle s) h
  case load => exact congrArg (settle s) (loadProgram_of_gt h s)

end Sys2Proof.Machine
end

/-! ## The timers over one step and over many (R105, R196) -/

section
namespace Sys2Proof.Machine

open Sys2Proof.Claims

variable {s t : State}

theorem delay_not_mem_writtenParts {i : Instr} (hi : ∀ x, i ≠ .ldDTVx x) : .delay ∉ writtenParts i := by
  cases i with
  | ldDTVx x => exact absurd rfl (hi x)
  | _ => simp [writtenParts]

theorem sound_not_mem_writtenParts {i : Instr} (hi : ∀ x, i ≠ .ldSTVx x) : .sound ∉ writtenParts i := by
  cases i with
  | ldSTVx x => exact absurd rfl (hi x)
  | _ => simp [writtenParts]

theorem step_dt_toNat (h : step s = .next t) (hi : ∀ x, next s ≠ .ldDTVx x) : t.dt.toNat = s.dt.toNat - 1 := by
  obtain ⟨-, u, hu, rfl⟩ := step_next_exec h
  have hkept : u.dt = s.dt := (exec_frame hu).delay (delay_not_mem_writtenParts hi)
  rw [State.tickTimers_dt, decrement_toNat, hkept]

theorem step_st_toNat (h : step s = .next t) (hi : ∀ x, next s ≠ .ldSTVx x) : t.st.toNat = s.st.toNat - 1 := by
  obtain ⟨-, u, hu, rfl⟩ := step_next_exec h
  have hkept : u.st = s.st := (exec_frame hu).sound (sound_not_mem_writtenParts hi)
  rw [State.tickTimers_st, decrement_toNat, hkept]

/-- Settles O9: where the instruction has no part in a timer by its frame, and for the three timer moves by the value
they move. -/
theorem timersTickOncePerStep : Obligations.TimersTickOncePerStep := by
  intro s t h
  refine ⟨step_dt_toNat h, ?setDT, step_st_toNat h, ?setST, ?readDT⟩
  all_goals
    intro x hi
    obtain ⟨-, u, hu, rfl⟩ := step_next_exec h
    rw [hi] at hu
    cases hu
  case setDT => exact decrement_toNat _
  case setST => exact decrement_toNat _
  case readDT => exact State.reg_setReg_same _ _ _

/-- A count that every step of a run lowers by one, unless its instruction is one of those that write it. -/
theorem runsTo_countsDown {count : State → Nat} {writes : Instr → Prop}
    (hstep : ∀ s t, step s = .next t → ¬ writes (next s) → count t = count s - 1) {k : Nat} (hrun : RunsTo s k t)
    (hno : ∀ j u, j < k → RunsTo s j u → ¬ writes (next u)) : count t = count s - k := by
  induction k generalizing s with
  | zero => rw [runsTo_zero.mp hrun, Nat.sub_zero]
  | succ k ih =>
    obtain ⟨u, hu, hrest⟩ := runsTo_succ.mp hrun
    have hfirst : count u = count s - 1 := hstep s u hu (hno 0 s k.succ_pos (runsTo_zero.mpr rfl))
    have hlater : count t = count u - k := ih hrest fun j w hj hw =>
      hno (j + 1) w (Nat.succ_lt_succ hj) (runsTo_succ.mpr ⟨u, hu, hw⟩)
    omega

theorem runsTo_dt_toNat {k : Nat} (hrun : RunsTo s k t)
    (hno : ∀ j u x, j < k → RunsTo s j u → next u ≠ .ldDTVx x) : t.dt.toNat = s.dt.toNat - k :=
  runsTo_countsDown (count := fun s => s.dt.toNat) (writes := fun i => ∃ x, i = .ldDTVx x)
    (fun _ _ h hi => step_dt_toNat h (not_exists.mp hi)) hrun fun j u hj hu => not_exists.mpr fun x => hno j u x hj hu

theorem runsTo_st_toNat {k : Nat} (hrun : RunsTo s k t)
    (hno : ∀ j u x, j < k → RunsTo s j u → next u ≠ .ldSTVx x) : t.st.toNat = s.st.toNat - k :=
  runsTo_countsDown (count := fun s => s.st.toNat) (writes := fun i => ∃ x, i = .ldSTVx x)
    (fun _ _ h hi => step_st_toNat h (not_exists.mp hi)) hrun fun j u hj hu => not_exists.mpr fun x => hno j u x hj hu

/-- Settles O10: each timer counts the steps of the run, and a read of `DT` comes before that step's own tick. -/
theorem timersCountStepsDown : Obligations.TimersCountStepsDown := by
  intro k s t hrun
  refine ⟨fun hno => ⟨runsTo_dt_toNat hrun hno, fun x ht hi => ?_⟩, runsTo_st_toNat hrun⟩
  refine ⟨_, step_of_exec ht hi rfl, ?_⟩
  rw [State.tickTimers_reg, State.reg_setReg_same, State.advance_dt]
  exact runsTo_dt_toNat hrun hno

end Sys2Proof.Machine
end

/-! ## Waiting for a key (R107, R192, R252) -/

section
namespace Sys2Proof.Machine

open Sys2Proof.Claims

variable {s : State}

theorem execKey_of_leastKey {x : Reg} {k : Key} (h : s.leastKey = some k) :
    execKey x s = .next (s.setReg x (keyValue s.config.keyStoreIndex k)) := by
  rw [execKey, h]

theorem execKey_of_noKey (x : Reg) (h : ∀ j, s.keyDown j = false) : execKey x s = .next (s.setPc (s.pc - 2)) := by
  rw [execKey, s.leastKey_eq_none_iff.mpr h]

theorem keyValue_true_toNat (k : Key) : (keyValue true k).toNat = k.val :=
  (BitVec.toNat_ofNat k.val 8).trans (Nat.mod_eq_of_lt (by omega))

/-- Settles O50: the least pressed key by `leastKey`, or none. -/
theorem keyWaitsForAKey : Obligations.KeyWaitsForAKey := by
  refine ⟨fun w hw => ?decode, fun s x k hk hleast => ?pressed, fun s x hup => ?none⟩
  case decode => simp [decodeWord_of_inFamilyByte hw, decodeF, hw.2]
  case pressed =>
    refine ⟨_, execKey_of_leastKey ((s.leastKey_eq_some_iff k).mpr ⟨hk, hleast⟩), frame_setReg s x _, ?_, ?_⟩
    · intro hindex; rw [State.reg_setReg_same, hindex, keyValue_true_toNat]
    · intro hone; rw [State.reg_setReg_same, hone]; rfl
  case none => exact ⟨_, execKey_of_noKey x hup, frame_setPc s _, rfl⟩

/-! A machine that stands still: each step is one tick and nothing else. -/

theorem runsTo_of_step_eq_tickTimers {P : State → Prop} (hstep : ∀ s, P s → step s = .next s.tickTimers)
    (htick : ∀ s, P s → P s.tickTimers) (hs : P s) (k : Nat) : RunsTo s k (State.tickTimers^[k] s) := by
  induction k generalizing s with
  | zero => exact runsTo_zero.mpr rfl
  | succ k ih => exact runsTo_succ.mpr ⟨s.tickTimers, hstep s hs, ih (htick s hs)⟩

theorem frame_iterate_tickTimers (s : State) (k : Nat) : Frame s (State.tickTimers^[k] s) [] [.delay, .sound] := by
  induction k generalizing s with
  | zero => exact (Frame.refl s).mono (by simp) (by simp)
  | succ k ih => exact (frame_tickTimers s).trans (ih s.tickTimers)

theorem iterate_tickTimers_dt_toNat (s : State) (k : Nat) :
    (State.tickTimers^[k] s).dt.toNat = s.dt.toNat - k := by
  induction k generalizing s with
  | zero => rfl
  | succ k ih =>
    rw [Function.iterate_succ_apply, ih, State.tickTimers_dt, decrement_toNat]; omega

theorem iterate_tickTimers_st_toNat (s : State) (k : Nat) :
    (State.tickTimers^[k] s).st.toNat = s.st.toNat - k := by
  induction k generalizing s with
  | zero => rfl
  | succ k ih =>
    rw [Function.iterate_succ_apply, ih, State.tickTimers_st, decrement_toNat]; omega

/-- The next step executes `KEY Vx` and finds no key pressed. -/
def State.WaitsForKey (x : Reg) (s : State) : Prop :=
  s.CanFetch ∧ next s = .key x ∧ ∀ j, s.keyDown j = false

theorem State.WaitsForKey.tickTimers {x : Reg} (h : s.WaitsForKey x) : s.tickTimers.WaitsForKey x := h

/-- The program counter is advanced over `KEY` and taken back to it (R107). -/
theorem State.WaitsForKey.step_eq {x : Reg} (h : s.WaitsForKey x) : step s = .next s.tickTimers := by
  obtain ⟨hs, hi, hup⟩ := h
  have hback : s.advance.setPc (s.advance.pc - 2) = s := by
    rw [State.advance_pc, BitVec.add_sub_cancel]; rfl
  have hexec : exec (.key x) s.advance = .next s :=
    (execKey_of_noKey (s := s.advance) x hup).trans (congrArg _ hback)
  exact step_of_exec hs hi hexec

/-- Settles O51: a wait for a key is a machine that stands still. -/
theorem keyStallsUntilAKeyIsPressed : Obligations.KeyStallsUntilAKeyIsPressed := by
  intro s x hs hi hup k
  have hwait : s.WaitsForKey x := ⟨hs, hi, hup⟩
  exact ⟨State.tickTimers^[k] s,
    runsTo_of_step_eq_tickTimers (fun _ h => h.step_eq) (fun _ h => h.tickTimers) hwait k,
    frame_iterate_tickTimers s k, iterate_tickTimers_dt_toNat s k, iterate_tickTimers_st_toNat s k⟩

end Sys2Proof.Machine
end

/-! ## Control flow (R120 to R132, R251) -/

section
namespace Sys2Proof.Machine

open Sys2Proof.Claims

variable {s t : State}

/-! The families decoded by the high nibble alone that this section speaks of, beside 0x5 and 0x9 (R77). -/

theorem decodeWord_of_family1 {w : Word} (hf : family w = 0x1) : decodeWord w = .jmp (fieldNNN w) := by
  simp [decodeWord, hf]

theorem decodeWord_of_family2 {w : Word} (hf : family w = 0x2) : decodeWord w = .call (fieldNNN w) := by
  simp [decodeWord, hf]

theorem decodeWord_of_family3 {w : Word} (hf : family w = 0x3) : decodeWord w = .seImm (fieldX w) (fieldNN w) := by
  simp [decodeWord, hf]

theorem decodeWord_of_family4 {w : Word} (hf : family w = 0x4) : decodeWord w = .sneImm (fieldX w) (fieldNN w) := by
  simp [decodeWord, hf]

theorem decodeWord_of_familyB {w : Word} (hf : family w = 0xB) : decodeWord w = .jmpV0 (fieldNNN w) := by
  simp [decodeWord, hf]

/-! A jump to its own address is a machine that stands still. -/

theorem State.Finished.tickTimers {a : Addr} (h : s.Finished a) : s.tickTimers.Finished a := h

theorem State.Finished.canFetch {a : Addr} (h : s.Finished a) (ha : a.toNat ≤ 0xFFE) : s.CanFetch := by
  rwa [State.CanFetch, h.1, ← addrWord, addrWord_toNat]

theorem State.Finished.next_eq {a : Addr} (h : s.Finished a) : next s = .jmp a := by
  rw [next, h.2, decodeWord_encode rfl]

/-- The program counter is advanced over the jump and set back to it (R126). -/
theorem State.Finished.step_eq {a : Addr} (h : s.Finished a) (ha : a.toNat ≤ 0xFFE) :
    step s = .next s.tickTimers := by
  have hback : s.advance.setPc (addrWord a) = s := by rw [addrWord, ← h.1]; rfl
  have hexec : exec (.jmp a) s.advance = .next s := congrArg _ hback
  exact step_of_exec (h.canFetch ha) h.next_eq hexec

/-- Settles O60: each step of the run is one tick at the same jump. -/
theorem jumpToSelfOnlyTicks : Obligations.JumpToSelfOnlyTicks := by
  intro s a hs ha k
  have hstep : ∀ u : State, u.Finished a → step u = .next u.tickTimers := fun _ h => h.step_eq ha
  have htick : ∀ u : State, u.Finished a → u.tickTimers.Finished a := fun _ h => h.tickTimers
  exact ⟨State.tickTimers^[k] s, runsTo_of_step_eq_tickTimers hstep htick hs k,
    Function.Iterate.rec (State.Finished · a) hs htick k,
    frame_iterate_tickTimers s k, iterate_tickTimers_dt_toNat s k, iterate_tickTimers_st_toNat s k⟩

/-! The no-operations and the jumps. -/

/-- Settles O25: the sub-opcodes listed are those `unassigned0` to `unassignedF` take. -/
theorem noOpsDoNothing : Obligations.NoOpsDoNothing := by
  refine ⟨?sys, ?nop8, ?nopE, ?nopF, fun _ _ => rfl, fun _ _ _ _ => rfl, fun _ _ _ => rfl, fun _ _ _ => rfl⟩
  case sys =>
    rintro w ⟨hf, h0, hE⟩
    have hn : unassigned0 (fieldN w) = true := by simpa [unassigned0] using ⟨h0, hE⟩
    exact (decodeWord_of_family0 hf).trans (decode0_of_unassigned hn)
  case nop8 =>
    rintro w ⟨hf, hn⟩
    exact (decodeWord_of_family8 hf).trans (decode8_of_unassigned (List.contains_iff_mem.mpr hn))
  case nopE =>
    rintro w ⟨hf, h1, hE⟩
    have hn : unassignedE (fieldN w) = true := by simpa [unassignedE] using ⟨h1, hE⟩
    exact (decodeWord_of_familyE hf).trans (decodeE_of_unassigned hn)
  case nopF =>
    rintro w ⟨hf, hk⟩
    have hn : unassignedF (fieldNN w) = true := by rw [unassignedF, List.contains_eq_mem, decide_eq_false hk]; rfl
    exact (decodeWord_of_familyF hf).trans (decodeF_of_unassigned hn)

/-- Settles O26. -/
theorem jumpsSetTheProgramCounter : Obligations.JumpsSetTheProgramCounter :=
  ⟨fun _ => decodeWord_of_family1, fun _ => decodeWord_of_familyB,
    fun s nnn => ⟨s.setPc (addrWord nnn), rfl, addrWord_toNat nnn, frame_setPc s _⟩,
    fun s nnn => ⟨s.setPc (offsetTarget s nnn), rfl, offsetTarget_toNat s nnn, frame_setPc s _⟩⟩

/-! The call stack (R34, R35). -/

theorem exec_call_of_lt (nnn : Addr) (h : s.sp.val < 16) :
    exec (.call nnn) s = .next ((s.push s.pc h).setPc (addrWord nnn)) := dif_pos h

theorem exec_call_of_full (nnn : Addr) (h : s.sp.val = 16) : exec (.call nnn) s = .fault .stackOverflow :=
  dif_neg (Nat.not_lt.mpr h.ge)

theorem exec_ret_of_pos (h : 0 < s.sp.val) : exec .ret s = .next ((s.pop h).setPc (s.top h)) := dif_pos h

theorem exec_ret_of_empty (h : s.sp.val = 0) : exec .ret s = .fault .stackUnderflow :=
  dif_neg (Nat.not_lt.mpr h.le)

theorem State.top_push (s : State) (ret : Word) (h : s.sp.val < 16) :
    (s.push ret h).top (Nat.succ_pos s.sp.val) = ret := by
  simp [State.top, State.push_stack_getElem]

/-- The entry a `RET` pops depends on the stack and the stack pointer alone. -/
theorem State.top_congr (hsp : t.sp = s.sp) (hstack : t.stack = s.stack) (h : 0 < t.sp.val) :
    t.top h = s.top (hsp ▸ h) := by
  simp only [State.top, hsp, hstack]

/-- Settles O27. -/
theorem callPushesAndJumps : Obligations.CallPushesAndJumps := by
  refine ⟨fun _ => decodeWord_of_family2, fun s nnn h => ?_, fun s nnn => exec_call_of_full nnn⟩
  have hexec := exec_call_of_lt nnn h
  exact ⟨_, hexec, addrWord_toNat nnn, rfl, (s.push_stack_getElem s.pc h _ h).trans (if_pos rfl),
    fun k hk => (s.push_stack_getElem s.pc h k.val k.isLt).trans (if_neg hk), exec_frame hexec⟩

/-- Settles O28. -/
theorem retPopsTheProgramCounter : Obligations.RetPopsTheProgramCounter := by
  refine ⟨?_, fun s h => ⟨_, exec_ret_of_pos h, rfl, rfl, rfl, exec_frame (exec_ret_of_pos h)⟩,
    fun s => exec_ret_of_empty⟩
  rintro w ⟨hf, hn⟩
  rw [decodeWord_of_family0 hf]
  simp [decode0, hn]

/-- Settles O29: the popped entry is the pushed one. -/
theorem retUndoesCall : Obligations.RetUndoesCall := by
  intro s nnn h
  refine ⟨_, exec_call_of_lt nnn h, fun u hsp hstack => ?_⟩
  have hdepth : u.sp.val = s.sp.val + 1 := congrArg Fin.val hsp
  have hpos : 0 < u.sp.val := hdepth ▸ Nat.succ_pos _
  have htop : u.top hpos = s.pc := (State.top_congr hsp hstack hpos).trans (s.top_push s.pc h)
  exact ⟨_, exec_ret_of_pos hpos, htop, Fin.ext (Nat.sub_eq_of_eq_add hdepth)⟩

/-! The skips (R124). -/

/-- An instruction that skips on `p`: what it does where `p` holds, and where a condition `q` rules `p` out. -/
theorem exec_skipIf_decide {i : Instr} {p q : Prop} [Decidable p] (hi : exec i s = .next (s.skipIf (decide p)))
    (hq : q → ¬p) :
    ∃ t, exec i s = .next t ∧ Frame s t [] [.pc] ∧ (p → t.pc = s.pc + 2) ∧ (q → t.pc = s.pc) := by
  refine ⟨_, hi, frame_skipIf s _, fun h => ?taken, fun h => ?untaken⟩
  case taken => rw [decide_eq_true h]; rfl
  case untaken => rw [decide_eq_false (hq h)]; rfl

/-- Settles O30: the `SE` forms skip on the equality, the `SNE` forms on its negation. -/
theorem comparisonSkips : Obligations.ComparisonSkips :=
  ⟨fun _ => decodeWord_of_family3, fun _ => decodeWord_of_family4,
    fun _ => decodeWord_of_family5, fun _ => decodeWord_of_family9,
    fun _ _ _ => exec_skipIf_decide rfl id, fun _ _ _ => exec_skipIf_decide rfl not_not_intro,
    fun _ _ _ => exec_skipIf_decide rfl id, fun _ _ _ => exec_skipIf_decide rfl not_not_intro⟩

end Sys2Proof.Machine
end

/-! ## Arithmetic, logic and shifts (R140 to R150) -/

section
namespace Sys2Proof.Machine

open Sys2Proof.Claims

variable (s : State)

/-! Decoding: the two immediate forms, and family 0x8 by its low nibble (R77, R79). -/

theorem decodeWord_of_family6 {w : Word} (hf : family w = 0x6) : decodeWord w = .ldImm (fieldX w) (fieldNN w) := by
  simp [decodeWord, hf]

theorem decodeWord_of_family7 {w : Word} (hf : family w = 0x7) : decodeWord w = .addImm (fieldX w) (fieldNN w) := by
  simp [decodeWord, hf]

theorem decodesTo_of_decode8 {n : Nibble} {i : Word → Instr} (h : ∀ w, fieldN w = n → decode8 w = i w) :
    DecodesTo (inFamilyLow 0x8 n) i :=
  fun w hw => (decodeWord_of_family8 hw.1).trans (h w hw.2)

/-! The subtractions, as numbers: one lemma for each way `VF` can be among the operands (R147, R149). -/

theorem State.reg_subtractInto_vF {dst : Reg} (hdst : dst ≠ 15) (a b : Reg) :
    ((s.subtractInto dst a b).reg 15).toNat = flag ((s.reg b).toNat < (s.reg a).toNat) := by
  rw [State.reg_subtractInto, ← noBorrowFlag_toNat, if_neg hdst.symm]; rfl

/-- The operands are read after the flag write: where one of them is `VF`, it is the new flag. -/
theorem State.reg_subtractInto_dst (dst a b : Reg) :
    let f := flag ((s.reg b).toNat < (s.reg a).toNat)
    ((s.subtractInto dst a b).reg dst).toNat =
      ((if a = 15 then f else (s.reg a).toNat) + 256 - (if b = 15 then f else (s.reg b).toNat)) % 256 := by
  rw [State.reg_subtractInto, ← noBorrowFlag_toNat, if_pos rfl, sub_toNat, apply_ite BitVec.toNat,
    apply_ite BitVec.toNat]

theorem State.reg_subtractInto_dst_of_ne {a b : Reg} (ha : a ≠ 15) (hb : b ≠ 15) (dst : Reg) :
    ((s.subtractInto dst a b).reg dst).toNat = ((s.reg a).toNat + 256 - (s.reg b).toNat) % 256 := by
  rw [State.reg_subtractInto_dst, if_neg ha, if_neg hb]

theorem State.reg_subtractInto_dst_of_right_vF {a : Reg} (ha : a ≠ 15) (dst : Reg) :
    ((s.subtractInto dst a 15).reg dst).toNat =
      ((s.reg a).toNat + 256 - flag ((s.reg 15).toNat < (s.reg a).toNat)) % 256 := by
  rw [State.reg_subtractInto_dst, if_neg ha, if_pos rfl]

theorem State.reg_subtractInto_dst_of_left_vF {b : Reg} (hb : b ≠ 15) (dst : Reg) :
    ((s.subtractInto dst 15 b).reg dst).toNat =
      (flag ((s.reg b).toNat < (s.reg 15).toNat) + 256 - (s.reg b).toNat) % 256 := by
  rw [State.reg_subtractInto_dst, if_pos rfl, if_neg hb]

/-- With `VF` as both operands the new flag is subtracted from itself. -/
theorem State.reg_subtractInto_dst_of_both_vF (dst : Reg) : (s.subtractInto dst 15 15).reg dst = 0 := by
  rw [State.reg_subtractInto, if_pos rfl]
  exact BitVec.sub_self _

/-- Settles O33: `V[x] - V[y]` for each way `VF` can be an operand. -/
theorem subSetsNoBorrow : Obligations.SubSetsNoBorrow := by
  refine ⟨decodesTo_of_decode8 fun w hn => by simp [decode8, hn], fun s x y => ?_⟩
  refine ⟨s.subtractInto x x y, rfl, frame_subtractInto s x x y, fun hx => s.reg_subtractInto_vF hx x y,
    fun hx hy => s.reg_subtractInto_dst_of_ne hx hy x, ?vFIsY, ?vFIsX, ?both⟩
  case vFIsY => rintro hx rfl; exact s.reg_subtractInto_dst_of_right_vF hx x
  case vFIsX => rintro rfl hy; exact s.reg_subtractInto_dst_of_left_vF hy 15
  case both => rintro rfl rfl; exact s.reg_subtractInto_dst_of_both_vF 15

/-- Settles O34: `V[y] - V[x]` for each way `VF` can be an operand. -/
theorem subnSetsNoBorrow : Obligations.SubnSetsNoBorrow := by
  refine ⟨decodesTo_of_decode8 fun w hn => by simp [decode8, hn], fun s x y => ?_⟩
  refine ⟨s.subtractInto x y x, rfl, frame_subtractInto s x y x, fun hx => s.reg_subtractInto_vF hx y x,
    fun hx hy => s.reg_subtractInto_dst_of_ne hy hx x, ?vFIsY, ?vFIsX, ?both⟩
  case vFIsY => rintro hx rfl; exact s.reg_subtractInto_dst_of_left_vF hx x
  case vFIsX => rintro rfl hy; exact s.reg_subtractInto_dst_of_right_vF hy 15
  case both => rintro rfl rfl; exact s.reg_subtractInto_dst_of_both_vF 15

/-! The forms without a flag. -/

/-- Settles O31. -/
theorem flaglessAluResults : Obligations.FlaglessAluResults := by
  refine ⟨fun _ => decodeWord_of_family6, fun _ => decodeWord_of_family7, ?decMov, ?decOr, ?decAnd, ?decXor,
    fun s x nn => ⟨s.setReg x nn, rfl, s.reg_setReg_same x nn, frame_setReg s x _⟩,
    fun s x nn => ⟨s.setReg x (s.reg x + nn), rfl, ?add, frame_setReg s x _⟩,
    fun s x y => ⟨s.setReg x (s.reg y), rfl, s.reg_setReg_same x _, frame_setReg s x _⟩,
    fun s x y => ⟨s.setReg x (s.reg x ||| s.reg y), rfl, fun k => ?or, frame_setReg s x _⟩,
    fun s x y => ⟨s.setReg x (s.reg x &&& s.reg y), rfl, fun k => ?and, frame_setReg s x _⟩,
    fun s x y => ⟨s.setReg x (s.reg x ^^^ s.reg y), rfl, fun k => ?xor, frame_setReg s x _⟩⟩
  case decMov | decOr | decAnd | decXor => exact decodesTo_of_decode8 fun w hn => by simp [decode8, hn]
  case add => rw [State.reg_setReg_same, BitVec.toNat_add]
  case or => rw [State.reg_setReg_same, BitVec.getLsbD_or]
  case and => rw [State.reg_setReg_same, BitVec.getLsbD_and]
  case xor => rw [State.reg_setReg_same, BitVec.getLsbD_xor]

/-! The addition and the shifts: a flag first, then a result (R9). -/

theorem State.reg_vF_setReg_of_ne {x : Reg} (hx : x ≠ 15) (f b : Byte) :
    ((s.setReg Reg.vF f).setReg x b).reg 15 = f := by
  rw [State.reg_setReg_ne _ hx.symm, State.reg_setReg_same]

/-- Settles O32: the sum is formed before the flag is written. -/
theorem addSetsCarry : Obligations.AddSetsCarry := by
  refine ⟨decodesTo_of_decode8 fun w hn => by simp [decode8, hn], fun s x y => ?_⟩
  refine ⟨_, rfl, frame_setReg_vF_setReg s x _ _, ?sum, ?carry⟩
  case sum => rw [State.reg_setReg_same, BitVec.toNat_add]
  case carry => intro hx; rw [s.reg_vF_setReg_of_ne hx, carryFlag_toNat]

/-- Settles O35: where `VF` is `x` the one bit of the flag is shifted out. -/
theorem shrSetsTheLowBit : Obligations.ShrSetsTheLowBit := by
  refine ⟨decodesTo_of_decode8 fun w hn => by simp [decode8, hn], fun s x y => ?_⟩
  refine ⟨_, rfl, frame_setReg_vF_setReg s x _ _, fun hx => ⟨?half, ?lowBit⟩, ?vFIsX⟩
  case half =>
    rw [State.reg_setReg_same, State.reg_setReg_ne _ hx, BitVec.toNat_ushiftRight]; rfl
  case lowBit => rw [s.reg_vF_setReg_of_ne hx, lowBitFlag_toNat]
  case vFIsX =>
    rintro rfl
    apply BitVec.eq_of_toNat_eq
    rw [State.reg_setReg_same, State.reg_setReg_same, BitVec.toNat_ushiftRight, lowBitFlag_toNat,
      Nat.shiftRight_eq_div_pow]
    exact Nat.div_eq_of_lt (Nat.mod_lt _ Nat.two_pos)

/-- Settles O36: where `VF` is `x` the one bit of the flag is doubled. -/
theorem shlSetsTheHighBit : Obligations.ShlSetsTheHighBit := by
  refine ⟨decodesTo_of_decode8 fun w hn => by simp [decode8, hn], fun s x y => ?_⟩
  refine ⟨_, rfl, frame_setReg_vF_setReg s x _ _, fun hx => ⟨?double, ?highBit⟩, ?vFIsX⟩
  case double =>
    rw [State.reg_setReg_same, State.reg_setReg_ne _ hx, BitVec.toNat_shiftLeft, Nat.shiftLeft_eq]
  case highBit => rw [s.reg_vF_setReg_of_ne hx, highBitFlag_toNat]
  case vFIsX =>
    rintro rfl
    have := (s.reg 15).isLt
    rw [State.reg_setReg_same, State.reg_setReg_same, BitVec.toNat_shiftLeft, highBitFlag_toNat, Nat.shiftLeft_eq]
    omega

end Sys2Proof.Machine
end

/-! ## The index register and memory (R160 to R167) -/

section
namespace Sys2Proof.Machine

open Sys2Proof.Claims

/-! Decoding: one family by the high nibble, and family 0xF by its low byte (R77, R81). -/

theorem decodeWord_of_familyA {w : Word} (hf : family w = 0xA) : decodeWord w = .ldI (fieldNNN w) := by
  simp [decodeWord, hf]

theorem decodesTo_of_decodeF {k : Byte} {i : Word → Instr} (h : ∀ w, fieldNN w = k → decodeF w = i w) :
    DecodesTo (inFamilyByte k) i :=
  fun w hw => (decodeWord_of_inFamilyByte hw).trans (h w hw.2)

/-! The index register (R160 to R162). -/

theorem glyphAddr_toNat (b : Byte) : (glyphAddr b).toNat = 0x050 + 5 * (b.toNat % 16) := by
  have hdigit : (b &&& 0xF).toNat = b.toNat % 16 := Nat.and_two_pow_sub_one_eq_mod b.toNat 4
  rw [glyphAddr, BitVec.toNat_ofNat, hdigit, Config.fontBase]
  omega

theorem maskIndex_toNat (sum : Nat) : (maskIndex sum).toNat = sum % 0x1000 := by
  rw [maskIndex, BitVec.toNat_ofNat]
  omega

theorem boolByte_decide_toNat (p : Prop) [Decidable p] : (boolByte (decide p)).toNat = flag p := by
  simp [flag]

/-- Settles O38. -/
theorem indexLoads : Obligations.IndexLoads :=
  ⟨fun _ => decodeWord_of_familyA, decodesTo_of_decodeF fun w hk => by simp [decodeF, hk],
    fun s nnn => ⟨s.setI (addrWord nnn), rfl, addrWord_toNat nnn, frame_setI s _⟩,
    fun s x => ⟨s.setI (glyphAddr (s.reg x)), rfl, glyphAddr_toNat _, frame_setI s _⟩⟩

/-- Settles O39: the five named instances are cases of the general value of `VF`. -/
theorem addIndexMasksAndFlags : Obligations.AddIndexMasksAndFlags := by
  refine ⟨decodesTo_of_decodeF fun w hk => by simp [decodeF, hk], fun s x => ?_⟩
  refine ⟨_, rfl, (frame_setReg s Reg.vF _).append (frame_setI _ _), maskIndex_toNat _, ?general, fun hf => ?past0x100,
    fun hf => ?past0xFF, fun hf => ?past0xFFF, fun hf => ?past0x100OrOld, fun hf => ?noEffect⟩
  all_goals rw [State.setI_reg, State.reg_setReg_same]
  case general => rfl
  case past0x100 | past0xFF | past0xFFF => rw [hf]; exact boolByte_decide_toNat _
  case past0x100OrOld | noEffect => rw [hf]; rfl

/-! The decimal digits of a byte (R163). -/

theorem readByte_writeBytes_decimalDigits (s : State) (a : Nat) (b : Byte) :
    ((s.writeBytes a (decimalDigits b)).readByte a).toNat = b.toNat / 100 ∧
    ((s.writeBytes a (decimalDigits b)).readByte (a + 1)).toNat = b.toNat / 10 % 10 ∧
    ((s.writeBytes a (decimalDigits b)).readByte (a + 2)).toNat = b.toNat % 10 := by
  have hdigit (k : Nat) (hk : k < 3) := s.readByte_writeBytes_inside (decimalDigits b) a k hk
  refine ⟨?hundreds, ?tens, ?ones⟩
  case hundreds => exact (congrArg BitVec.toNat (hdigit 0 (by decide))).trans BitVec.toNat_udiv
  case tens =>
    rw [hdigit 1 (by decide)]
    exact BitVec.toNat_umod.trans (congrArg (· % 10) BitVec.toNat_udiv)
  case ones => rw [hdigit 2 (by decide)]; exact BitVec.toNat_umod

/-- Settles O41. -/
theorem btdStoresDecimalDigits : Obligations.BtdStoresDecimalDigits := by
  refine ⟨decodesTo_of_decodeF fun w hk => by simp [decodeF, hk], fun s x h => ?_, fun s x h => checkAddress_of_gt h _⟩
  obtain ⟨hhundreds, htens, hones⟩ := readByte_writeBytes_decimalDigits s (effAddr s 0) (s.reg x)
  refine ⟨s.writeBytes (effAddr s 0) (decimalDigits (s.reg x)), checkAddress_of_le h _, frame_writeBytes s _ _,
    hhundreds, htens, hones, fun a ha => ?_⟩
  exact State.readByte_writeBytes_outside _ _ _ _ (by rw [decimalDigits_length]; exact ha)

/-! The block moves (R164, R165). -/

/-- Settles O42. -/
theorem storeBlock : Obligations.StoreBlock := by
  refine ⟨decodesTo_of_decodeF fun w hk => by simp [decodeF, hk], fun s x h => ?_, fun s x h => checkAddress_of_gt h _⟩
  refine ⟨_, execStMem_of_le h, frame_writeBytes s _ _, fun r => readByte_writeBytes_regsUpTo s _, fun a ha => ?_⟩
  exact State.readByte_writeBytes_outside _ _ _ _ (by rw [State.regsUpTo_length]; exact ha)

/-- Settles O43. -/
theorem loadBlock : Obligations.LoadBlock := by
  refine ⟨decodesTo_of_decodeF fun w hk => by simp [decodeF, hk], fun s x h => ?_, fun s x h => checkAddress_of_gt h _⟩
  exact ⟨s.loadRegs x (effAddr s 0), checkAddress_of_le h _, frame_loadRegs s x _,
    fun r hr => (s.reg_loadRegs x r _).trans (if_pos hr)⟩

/-- Settles O44: the store leaves `I`, so the load reads the addresses that were stored to. -/
theorem loadAfterStoreRestores : Obligations.LoadAfterStoreRestores := by
  obtain ⟨-, hstore, -⟩ := storeBlock
  obtain ⟨-, hload, -⟩ := loadBlock
  intro s x h
  obtain ⟨t, ht, hframe, hstored, -⟩ := hstore s x h
  refine ⟨t, ht, fun regs => ?_⟩
  have haddr (k : Nat) : effAddr { t with v := regs } k = effAddr s k :=
    congrArg (·.toNat + k) (hframe.index (by decide))
  obtain ⟨u, hu, -, hloaded⟩ := hload { t with v := regs } x ((haddr x.val).trans_le h)
  refine ⟨u, hu, fun r hr => ?_⟩
  calc u.reg r = t.readByte (effAddr { t with v := regs } r.val) := hloaded r hr
    _ = t.readByte (effAddr s r.val) := congrArg t.readByte (haddr r.val)
    _ = s.reg r := hstored r hr

end Sys2Proof.Machine
end

/-! ## Display (R180 to R183) -/

section
namespace Sys2Proof.Machine

open Sys2Proof.Claims

variable {s u : State} {x y : Reg} {n : Nibble}

theorem decodeWord_of_familyD {w : Word} (hf : family w = 0xD) :
    decodeWord w = .drw (fieldX w) (fieldY w) (fieldN w) := by
  simp [decodeWord, hf]

/-- Settles O46. -/
theorem clsClearsTheScreen : Obligations.ClsClearsTheScreen := by
  refine ⟨?decodes, fun s => ⟨s.clearFb, rfl, s.pixel_clearFb, frame_clearFb s⟩⟩
  rintro w ⟨hf, hn⟩
  rw [decodeWord_of_family0 hf]
  simp [decode0, hn]

/-! One drawing (R181, R182). -/

theorem exec_drw_of_inRange (h : drawInRange s y n) :
    exec (.drw x y n) s = .next (s.drawn (originX s x) (originY s y) (visibleRows n (originY s y))) :=
  drawAt_of_inRange s h

theorem exec_drw_of_outOfRange (h : ¬drawInRange s y n) :
    exec (.drw x y n) s = .fault (.addressOutOfRange (s.i.toNat + rowsDrawn s y n - 1)) := by
  obtain ⟨hrows, hhigh⟩ := not_or.mp h
  exact drawAt_of_outOfRange s hrows (Nat.lt_of_not_le hhigh)

/-- Writing `VF` leaves the blitted pixels, and each of them is XORed with the sprite's own pixel there. -/
theorem pixel_drawn (s : State) (x y : Reg) (n : Nibble) (px py : Nat) [Decidable (spriteAt s x y n px py)] :
    (s.drawn (originX s x) (originY s y) (visibleRows n (originY s y))).pixel px py =
      (s.pixel px py ^^ decide (spriteAt s x y n px py)) := by
  rw [State.drawn, State.setReg_pixel, State.pixel_blit]
  simp only [spriteAt_iff, Bool.decide_and, Bool.decide_eq_true]

/-- Settles O47: the pixels by the blit, `VF` by the collision, the fault by the range check. -/
theorem drwXorsTheSprite : Obligations.DrwXorsTheSprite := by
  classical
  refine ⟨fun _ => decodeWord_of_familyD, fun s x y n h => ?drawn, fun _ _ _ _ => exec_drw_of_outOfRange⟩
  have hexec := exec_drw_of_inRange (x := x) h
  refine ⟨_, hexec, exec_frame hexec, fun px py hsprite => ?inverted, fun px py hsprite => ?kept,
    execDrw_collision hexec, execDrw_noCollision hexec⟩
  case inverted => rw [pixel_drawn, decide_eq_true hsprite, Bool.xor_true]
  case kept => rw [pixel_drawn, decide_eq_false hsprite, Bool.xor_false]

/-! What a second drawing reads (R183): the sprite and the range check depend on `I`, the two coordinates and memory
alone. -/

theorem State.pixel_congr (hfb : u.fb = s.fb) (px py : Nat) : u.pixel px py = s.pixel px py := by
  simp only [State.pixel, hfb]

theorem State.readByte_congr (hmem : u.mem = s.mem) (hconfig : u.config = s.config) (a : Nat) :
    u.readByte a = s.readByte a := by
  rw [State.readByte, hmem, hconfig, State.readByte]

theorem drawInRange_congr (hi : u.i = s.i) (hy : u.reg y = s.reg y) (n : Nibble) :
    drawInRange u y n ↔ drawInRange s y n := by
  simp only [drawInRange, rowsDrawn, hi, hy]

theorem spriteAt_congr (hi : u.i = s.i) (hx : u.reg x = s.reg x) (hy : u.reg y = s.reg y)
    (hread : ∀ a, u.readByte a = s.readByte a) (n : Nibble) (px py : Nat) :
    spriteAt u x y n px py ↔ spriteAt s x y n px py := by
  simp only [spriteAt, rowsDrawn, hi, hx, hy, hread]

/-- Settles O48: both drawings invert the pixels of one sprite, so the second finds each of them inverted. -/
theorem drawingTwiceRestoresTheScreen : Obligations.DrawingTwiceRestoresTheScreen := by
  obtain ⟨-, hdraw, -⟩ := drwXorsTheSprite
  intro s x y n hrange
  obtain ⟨t, ht, hframe, hinverted, hkept, -, hfree⟩ := hdraw s x y n hrange
  refine ⟨t, ht, fun u hfb hmem hconfig hut hx hy => ?_⟩
  have hi : u.i = s.i := hut.trans (hframe.index (by decide))
  have hread (a : Nat) : u.readByte a = s.readByte a :=
    (State.readByte_congr hmem hconfig a).trans (hframe.memory (by decide) a)
  have hpixel := State.pixel_congr hfb
  obtain ⟨w, hw, -, hinverted', hkept', hcollides', hfree'⟩ := hdraw u x y n ((drawInRange_congr hi hy n).mpr hrange)
  simp only [spriteAt_congr hi hx hy hread, hpixel] at hinverted' hkept' hcollides' hfree'
  have hhit : (∃ px py, spriteAt s x y n px py ∧ s.pixel px py = false) → w.reg 15 = 1 := by
    rintro ⟨px, py, hsprite, hoff⟩
    exact hcollides' ⟨px, py, hsprite, by rw [hinverted px py hsprite, hoff, Bool.not_false]⟩
  refine ⟨w, hw, fun px py => ?restored, hhit, fun hon => ?noHit, fun hoff => ⟨?first, ?second⟩⟩
  case restored =>
    by_cases hsprite : spriteAt s x y n px py
    · rw [hinverted' px py hsprite, hinverted px py hsprite, Bool.not_not]
    · rw [hkept' px py hsprite, hkept px py hsprite]
  case noHit =>
    exact hfree' fun px py hsprite => by rw [hinverted px py hsprite, hon px py hsprite, Bool.not_true]
  case first => exact hfree fun px py _ => hoff px py
  case second => exact fun ⟨px, py, hsprite⟩ => hhit ⟨px, py, hsprite, hoff px py⟩

end Sys2Proof.Machine
end

/-! ## The key skips (R190, R191) -/

section
namespace Sys2Proof.Machine

open Sys2Proof.Claims

variable {s : State} {x : Reg} {k : Key}

theorem decodesTo_of_decodeE {n : Nibble} {i : Word → Instr} (h : ∀ w, fieldN w = n → decodeE w = i w) :
    DecodesTo (inFamilyLow 0xE n) i :=
  fun w hw => (decodeWord_of_familyE hw.1).trans (h w hw.2)

theorem withKeyIndex_of_index {b : Byte} (h : b.toNat = k.val) (f : Key → Outcome) : withKeyIndex b f = f k := by
  obtain ⟨j, hj, hf⟩ | ⟨hb, -⟩ := withKeyIndex_eq b f
  · rw [hf, Fin.ext (hj.trans h)]
  · omega

theorem exec_skp_of_index (h : (s.reg x).toNat = k.val) :
    exec (.skp x) s = .next (s.skipIf (decide (s.keyDown k = true))) := by
  rw [Bool.decide_eq_true]
  exact withKeyIndex_of_index h fun j => .next (s.skipIf (s.keyDown j))

theorem exec_sknp_of_index (h : (s.reg x).toNat = k.val) :
    exec (.sknp x) s = .next (s.skipIf (decide (s.keyDown k = false))) := by
  rw [Bool.decide_eq_false]
  exact withKeyIndex_of_index h fun j => .next (s.skipIf (!s.keyDown j))

/-- Settles O49: with a key index both are skips on that key, one on its being down and one on its being up. -/
theorem keySkips : Obligations.KeySkips :=
  ⟨decodesTo_of_decodeE fun w hn => by simp [decodeE, hn], decodesTo_of_decodeE fun w hn => by simp [decodeE, hn],
    fun _ _ _ h => exec_skipIf_decide (exec_skp_of_index h) fun hup => by simp [hup],
    fun _ _ _ h => exec_skipIf_decide (exec_sknp_of_index h) fun hdown => by simp [hdown],
    fun _ _ h => ⟨execSkp_fault_iff.mpr ⟨h, rfl⟩, execSknp_fault_iff.mpr ⟨h, rfl⟩⟩⟩

end Sys2Proof.Machine
end

/-! ## The table of faults (R200) -/

section
namespace Sys2Proof.Machine

open Sys2Proof.Claims

variable {s : State} {f : Fault}

/-! When each instruction that can fault does, and with which fault; the key skips stand above. -/

theorem next_ne_fault (t : State) (f : Fault) : (.next t : Outcome) ≠ .fault f := nofun

theorem execCall_fault_iff {nnn : Addr} : execCall nnn s = .fault f ↔ s.sp.val = 16 ∧ f = .stackOverflow := by
  by_cases hsp : s.sp.val = 16
  · simp [show execCall nnn s = .fault .stackOverflow from exec_call_of_full nnn hsp, hsp, eq_comm]
  · have hnext := exec_call_of_lt (s := s) nnn (by have := s.sp.isLt; omega)
    exact iff_of_false (hnext.trans_ne (next_ne_fault _ f)) fun h => hsp h.1

theorem execRet_fault_iff : execRet s = .fault f ↔ s.sp.val = 0 ∧ f = .stackUnderflow := by
  by_cases hsp : s.sp.val = 0
  · simp [show execRet s = .fault .stackUnderflow from exec_ret_of_empty hsp, hsp, eq_comm]
  · have hnext := exec_ret_of_pos (Nat.pos_of_ne_zero hsp)
    exact iff_of_false (hnext.trans_ne (next_ne_fault _ f)) fun h => hsp h.1

/-- A memory instruction faults by its range check alone (R167): what follows the check succeeds. -/
theorem checkAddress_next_fault_iff {a : Nat} {t : State} :
    checkAddress a (.next t) = .fault f ↔ 0xFFF < a ∧ f = .addressOutOfRange a := by
  simp [checkAddress_fault_iff]

theorem execDrw_fault_iff {x y : Reg} {n : Nibble} :
    execDrw x y n s = .fault f ↔ (1 ≤ rowsDrawn s y n ∧ 0xFFF < s.i.toNat + rowsDrawn s y n - 1) ∧
      f = .addressOutOfRange (s.i.toNat + rowsDrawn s y n - 1) := by
  by_cases h : drawInRange s y n
  · refine iff_of_false ((exec_drw_of_inRange (x := x) h).trans_ne (next_ne_fault _ f)) ?_
    rintro ⟨⟨hrows, hhigh⟩, -⟩
    rcases h with h | h <;> omega
  · have hexec : execDrw x y n s = _ := exec_drw_of_outOfRange h
    obtain ⟨hrows, hhigh⟩ := not_or.mp h
    simp [hexec, Nat.one_le_iff_ne_zero, hrows, Nat.lt_of_not_le hhigh, eq_comm]

/-- An entry of the table, with its condition and its fault. -/
theorem entry_eq_some_iff {p : Prop} [Decidable p] {g : Fault} :
    (if p then some g else none) = some f ↔ p ∧ f = g := by
  simp [eq_comm]

/-- Past the fetch, the table's entry for the instruction is what the instruction raises. The program-counter advance
changes nothing an entry looks at. -/
theorem exec_fault_iff_faultOf (hs : s.CanFetch) : exec (next s) s.advance = .fault f ↔ faultOf s = some f := by
  rw [faultOf, if_neg (Nat.not_lt.mpr hs)]
  generalize next s = i
  cases i with
  | call nnn => exact execCall_fault_iff.trans entry_eq_some_iff.symm
  | ret => exact execRet_fault_iff.trans entry_eq_some_iff.symm
  | skp x => exact execSkp_fault_iff.trans entry_eq_some_iff.symm
  | sknp x => exact execSknp_fault_iff.trans entry_eq_some_iff.symm
  | drw x y n => exact execDrw_fault_iff.trans entry_eq_some_iff.symm
  | btd x | stMem x | ldMem x => exact checkAddress_next_fault_iff.trans entry_eq_some_iff.symm
  | key x => exact iff_of_false (execKey_ne_fault x _ f) nofun
  | _ => exact iff_of_false (next_ne_fault _ f) nofun

/-- Fetch comes first (R209). -/
theorem step_fault_iff_faultOf : step s = .fault f ↔ faultOf s = some f := by
  by_cases hs : s.CanFetch
  · rw [step_of_canFetch hs, thenTick_fault_iff]
    exact exec_fault_iff_faultOf hs
  · have hpc : 0xFFE < s.pc.toNat := Nat.lt_of_not_le hs
    have hfetch : step s = .fault (.addressOutOfRange (s.pc.toNat + 1)) := step_fault_iff.mpr (.inr ⟨hpc, rfl⟩)
    simp [hfetch, faultOf, hpc]

theorem loadProgram_fault_iff {bytes : List Byte} :
    loadProgram bytes s = .fault f ↔ 3584 < bytes.length ∧ f = .programTooLarge bytes.length := by
  by_cases h : 3584 < bytes.length
  · simp [loadProgram_of_gt h, h, eq_comm]
  · simp [loadProgram_of_le (Nat.le_of_not_lt h), h]

/-- The host operations beside `step` and `load_program` answer, and report no fault. -/
theorem perform_ne_fault {op : HostOp} (hstep : op ≠ .step) (hload : ∀ bytes, op ≠ .load bytes) :
    (perform (.running s) op).2 ≠ .fault f := by
  cases op with
  | step => exact absurd rfl hstep
  | load bytes => exact absurd rfl (hload bytes)
  | init | writeKey | readView | readTone => exact nofun

/-- Settles O13. -/
theorem faultsAreExactlyTheTable : Obligations.FaultsAreExactlyTheTable :=
  ⟨fun _ _ => step_fault_iff_faultOf, fun _ _ _ => loadProgram_fault_iff, fun _ _ _ => perform_ne_fault,
    fun _ _ _ => ⟨rfl, rfl, rfl, rfl, rfl⟩⟩

end Sys2Proof.Machine
end

/-! ## Loading a program, and a core never initialised (R233 to R235, R237) -/

section
namespace Sys2Proof.Machine

theorem perform_load_of_le {bytes : List Byte} (h : bytes.length ≤ 3584) (s : State) :
    perform (.running s) (.load bytes) = (.running (s.writeBytes 0x200 bytes), .ok) :=
  congrArg (settle s) (loadProgram_of_le h s)

/-- Settles O55: an accepted load is one block write at 0x200, and a refused one is a fault, which changes nothing. -/
theorem loadProgramCopiesTheBytes : Obligations.LoadProgramCopiesTheBytes := by
  obtain ⟨-, htooLong, -⟩ := faultsChangeNothing
  refine ⟨fun s bytes h => ⟨_, perform_load_of_le h s, frame_writeBytes s _ _, ?inside, ?outside⟩, htooLong⟩
  case inside => exact State.readByte_writeBytes_inside s bytes 0x200
  case outside => exact State.readByte_writeBytes_outside s bytes 0x200

/-- Settles O57: the session's table has one entry per operation. -/
theorem uninitializedCoreRefuses : Obligations.UninitializedCoreRefuses := by
  intro c op hop
  cases op with
  | init => exact absurd rfl hop
  | load | step | writeKey | readView | readTone => rfl

end Sys2Proof.Machine
end
